-- ==== Sys2Proof/Word.lean ====
section
/-! DEFINITION. Word.lean: the word, address, operand and text types of the PseudoAsm CORE
(00_scope.md R6, R8, R9; 30_encoding.md R100, R105, R115). -/

namespace Sys2Proof

/-- A cell or register value: a 32-bit pattern (R6 XLEN, R9). -/
abbrev Word := BitVec 32

/-- An Address. ADDR_W is at most 32 (R7), so an Address is held in 32 bits and reduced modulo
2^ADDR_W wherever the spec wraps one. -/
abbrev Addr := BitVec 32

/-- The 24-bit operand field of an instruction (R6 OPND_W). -/
abbrev Operand := BitVec 24

/-- The text of one instruction, as ENCODE takes it and DECODE gives it (R115, R124). -/
abbrev Text := List Char

/-- The addressing modes of R105, in their numeric order 0 to 3. -/
inductive Mode where
  /-- 0, immediate `#N`. -/
  | imm
  /-- 1, direct `N`. -/
  | dir
  /-- 2, indirect `(N)`. -/
  | ind
  /-- 3, indexed: never permitted. -/
  | idx
deriving DecidableEq, Repr

end Sys2Proof
end

