-- ==== Sys2Proof/Config.lean ====
section
/-! DEFINITION. Config.lean: the named parameters of 00_scope.md R7, which the spec leaves open and the
model takes as an argument. They are carried in State and no step writes them (log 1 [DEDUCED]). -/

namespace Sys2Proof

/-- LAYOUT: the bit positions of the three instruction fields (R101, R102). -/
inductive Layout where
  | lsbFirst
  | msbFirst
deriving DecidableEq, Repr

/-- SHADOW_FP: the floating-point format of the overflow detector (R201, R204). -/
inductive ShadowFp where
  | binary64
  | binary32
deriving DecidableEq, Repr

/-- O_UPDATE: whether arithmetic assigns O or only sets it (R205). -/
inductive OUpdate where
  | assign
  | sticky
deriving DecidableEq, Repr

/-- DIV_OVF: what DIV does for -2^31 / -1 (R210). -/
inductive DivOvf where
  | wrap
  | undefined
deriving DecidableEq, Repr

/-- The parameters of R7. A capacity of `none` is "unbounded". ADDR_W is held as its excess over 24,
so that 24 ≤ ADDR_W ≤ 32 holds of every value (log 14 [DESIGN CHOICE]). -/
structure Params where
  addrExtra : Fin 9
  layout : Layout
  uninit : Word
  spInit : Word
  pcInit : Word
  loadBase : Word
  shadowFp : ShadowFp
  oUpdate : OUpdate
  divOvf : DivOvf
  cellCapacity : Option Nat
  traceCapacity : Option Nat
deriving DecidableEq, Repr

/-- ADDR_W, the width of an Address, of PC and of SP (R7). -/
def Params.addrW (p : Params) : Nat := 24 + p.addrExtra.val

/-- The default column of the table of R7. -/
def Params.default : Params where
  addrExtra := 8
  layout := .lsbFirst
  uninit := 0xFFFFFFFF#32
  spInit := 0xFFFFFFFF#32
  pcInit := 0#32
  loadBase := 0#32
  shadowFp := .binary64
  oUpdate := .assign
  divOvf := .wrap
  cellCapacity := none
  traceCapacity := none

end Sys2Proof
end

