-- ==== Sys2Proof/Syntax.lean ====
section
/-! DEFINITION. Syntax.lean: the instructions of the opcode table (30_encoding.md R106), one constructor per
row, in the table's order. -/

namespace Sys2Proof

/-- An instruction as the decoder gives it. A LOAD-class or STORE-class instruction carries its
addressing mode and operand; a JUMP-class instruction carries its target, its mode being DIR
(R107); a NONE-class instruction carries nothing, its mode and operand fields being ignored
(R108, R114). -/
inductive Instr where
  | nop
  | lda (m : Mode) (x : Operand)
  | ldb (m : Mode) (x : Operand)
  | sta (m : Mode) (x : Operand)
  | stb (m : Mode) (x : Operand)
  | add
  | sub
  | mul
  | div
  | rts
  | inp
  | out
  | hlt
  | jsb (x : Operand)
  | jmp (x : Operand)
  | jsp (x : Operand)
  | jsn (x : Operand)
  | jiz (x : Operand)
  | jof (x : Operand)
deriving DecidableEq, Repr

end Sys2Proof
end

