-- ==== Sys2Proof/WellFormed.lean ====
section
/-! DEFINITION. WellFormed.lean: which instruction terms stand for a permitted form (30_encoding.md R106, R107). -/

namespace Sys2Proof

/-- LOAD permits IMM, DIR and IND (R107). -/
def loadModePermitted (m : Mode) : Bool := m == .imm || m == .dir || m == .ind

/-- STORE permits DIR and IND (R107). -/
def storeModePermitted (m : Mode) : Bool := m == .dir || m == .ind

/-- The permitted-mode column of R106. A JUMP-class or NONE-class term has one form only. -/
def Instr.wellFormed : Instr → Bool
  | .nop => true
  | .lda m _ => loadModePermitted m
  | .ldb m _ => loadModePermitted m
  | .sta m _ => storeModePermitted m
  | .stb m _ => storeModePermitted m
  | .add => true
  | .sub => true
  | .mul => true
  | .div => true
  | .rts => true
  | .inp => true
  | .out => true
  | .hlt => true
  | .jsb _ => true
  | .jmp _ => true
  | .jsp _ => true
  | .jsn _ => true
  | .jiz _ => true
  | .jof _ => true

end Sys2Proof
end

