-- ==== Sys2Proof/Decode.lean ====
section
/-! DEFINITION. Decode.lean: the instruction word, the opcode table, the decoder and the encoder
(30_encoding.md R100 to R114). -/

namespace Sys2Proof

/-- The opcode field of a word (R103). -/
def opcField (l : Layout) (w : Word) : BitVec 6 :=
  match l with
  | .lsbFirst => w.extractLsb' 0 6
  | .msbFirst => w.extractLsb' 26 6

/-- The addressing-mode field of a word (R103). -/
def modeField (l : Layout) (w : Word) : BitVec 2 :=
  match l with
  | .lsbFirst => w.extractLsb' 6 2
  | .msbFirst => w.extractLsb' 24 2

/-- The operand field of a word (R103). -/
def opndField (l : Layout) (w : Word) : Operand :=
  match l with
  | .lsbFirst => w.extractLsb' 8 24
  | .msbFirst => w.extractLsb' 0 24

/-- Packing, the inverse of field extraction (R104). -/
def pack (l : Layout) (opc : BitVec 6) (mode : BitVec 2) (opnd : Operand) : Word :=
  match l with
  | .lsbFirst => opnd ++ mode ++ opc
  | .msbFirst => opc ++ mode ++ opnd

/-- The number of an addressing mode (R105). -/
def Mode.bits : Mode → BitVec 2
  | .imm => 0#2
  | .dir => 1#2
  | .ind => 2#2
  | .idx => 3#2

/-- The addressing mode of a mode field (R105). -/
def Mode.ofBits (b : BitVec 2) : Mode :=
  if b = 0#2 then .imm else if b = 1#2 then .dir else if b = 2#2 then .ind else .idx

/-- The nineteen assigned opcodes of R106. -/
inductive Opcode where
  | nop | lda | ldb | sta | stb | add | sub | mul | div | rts | inp | out | hlt
  | jsb | jmp | jsp | jsn | jiz | jof
deriving DecidableEq, Repr

/-- The class column of R106. -/
inductive OpClass where
  | none
  | load
  | store
  | jump
deriving DecidableEq, Repr

/-- OPCODES: the table of R106 in the order of its numbers, 0 to 18. -/
def opcodeTable : List Opcode :=
  [.nop, .lda, .ldb, .sta, .stb, .add, .sub, .mul, .div, .rts, .inp, .out, .hlt,
   .jsb, .jmp, .jsp, .jsn, .jiz, .jof]

/-- The number of an opcode (R106). -/
def Opcode.number : Opcode → BitVec 6
  | .nop => 0#6
  | .lda => 1#6
  | .ldb => 2#6
  | .sta => 3#6
  | .stb => 4#6
  | .add => 5#6
  | .sub => 6#6
  | .mul => 7#6
  | .div => 8#6
  | .rts => 9#6
  | .inp => 10#6
  | .out => 11#6
  | .hlt => 12#6
  | .jsb => 13#6
  | .jmp => 14#6
  | .jsp => 15#6
  | .jsn => 16#6
  | .jiz => 17#6
  | .jof => 18#6

/-- OPCODES[o], or nothing for the unassigned numbers 19 to 63 (R106, R109). -/
def Opcode.ofNumber (o : BitVec 6) : Option Opcode := opcodeTable[o.toNat]?

/-- The class of an opcode (R106). -/
def Opcode.cls : Opcode → OpClass
  | .nop => .none
  | .lda => .load
  | .ldb => .load
  | .sta => .store
  | .stb => .store
  | .add => .none
  | .sub => .none
  | .mul => .none
  | .div => .none
  | .rts => .none
  | .inp => .none
  | .out => .none
  | .hlt => .none
  | .jsb => .jump
  | .jmp => .jump
  | .jsp => .jump
  | .jsn => .jump
  | .jiz => .jump
  | .jof => .jump

/-- The mnemonic column of R106. -/
def Opcode.mnemonic : Opcode → Text
  | .nop => ['N', 'O', 'P']
  | .lda => ['L', 'D', 'A']
  | .ldb => ['L', 'D', 'B']
  | .sta => ['S', 'T', 'A']
  | .stb => ['S', 'T', 'B']
  | .add => ['A', 'D', 'D']
  | .sub => ['S', 'U', 'B']
  | .mul => ['M', 'U', 'L']
  | .div => ['D', 'I', 'V']
  | .rts => ['R', 'T', 'S']
  | .inp => ['I', 'N', 'P']
  | .out => ['O', 'U', 'T']
  | .hlt => ['H', 'L', 'T']
  | .jsb => ['J', 'S', 'B']
  | .jmp => ['J', 'M', 'P']
  | .jsp => ['J', 'S', 'P']
  | .jsn => ['J', 'S', 'N']
  | .jiz => ['J', 'I', 'Z']
  | .jof => ['J', 'O', 'F']

/-- Whether the decoder accepts a mode with an opcode: a NONE-class opcode ignores the mode, and any
other takes the modes its class permits (R107, R108). -/
def Opcode.permits (op : Opcode) (m : Mode) : Bool :=
  match op.cls with
  | .none => true
  | .load => loadModePermitted m
  | .store => storeModePermitted m
  | .jump => m == .dir

/-- The instruction of an opcode with a mode and an operand; what the opcode's class ignores is
dropped (R108, R114). -/
def Instr.build (op : Opcode) (m : Mode) (x : Operand) : Instr :=
  match op with
  | .nop => .nop
  | .lda => .lda m x
  | .ldb => .ldb m x
  | .sta => .sta m x
  | .stb => .stb m x
  | .add => .add
  | .sub => .sub
  | .mul => .mul
  | .div => .div
  | .rts => .rts
  | .inp => .inp
  | .out => .out
  | .hlt => .hlt
  | .jsb => .jsb x
  | .jmp => .jmp x
  | .jsp => .jsp x
  | .jsn => .jsn x
  | .jiz => .jiz x
  | .jof => .jof x

/-- The decoder's verdict (R108). -/
inductive Verdict where
  /-- A permitted instruction. -/
  | ok (i : Instr)
  /-- The opcode field is 19 to 63. -/
  | unknownInstruction
  /-- The mode is not one the opcode's class permits. -/
  | invalidInstruction
deriving DecidableEq, Repr

/-- The decoder, total on every word and reading no state (R108, R110). -/
def decode (l : Layout) (w : Word) : Verdict :=
  match Opcode.ofNumber (opcField l w) with
  | none => .unknownInstruction
  | some op =>
    if op.permits (Mode.ofBits (modeField l w)) then
      .ok (Instr.build op (Mode.ofBits (modeField l w)) (opndField l w))
    else .invalidInstruction

/-- The operand sentinel of the no-operand form, -1 (R114). -/
def noOperand : Operand := 0xFFFFFF#24

/-- The opcode of an instruction. -/
def Instr.opcode : Instr → Opcode
  | .nop => .nop
  | .lda _ _ => .lda
  | .ldb _ _ => .ldb
  | .sta _ _ => .sta
  | .stb _ _ => .stb
  | .add => .add
  | .sub => .sub
  | .mul => .mul
  | .div => .div
  | .rts => .rts
  | .inp => .inp
  | .out => .out
  | .hlt => .hlt
  | .jsb _ => .jsb
  | .jmp _ => .jmp
  | .jsp _ => .jsp
  | .jsn _ => .jsn
  | .jiz _ => .jiz
  | .jof _ => .jof

/-- The mode an instruction is encoded with: 0 for the no-operand form, DIR for a jump (R107, R114). -/
def Instr.mode : Instr → Mode
  | .nop => .imm
  | .lda m _ => m
  | .ldb m _ => m
  | .sta m _ => m
  | .stb m _ => m
  | .add => .imm
  | .sub => .imm
  | .mul => .imm
  | .div => .imm
  | .rts => .imm
  | .inp => .imm
  | .out => .imm
  | .hlt => .imm
  | .jsb _ => .dir
  | .jmp _ => .dir
  | .jsp _ => .dir
  | .jsn _ => .dir
  | .jiz _ => .dir
  | .jof _ => .dir

/-- The operand field an instruction is encoded with (R114, R122). -/
def Instr.operand : Instr → Operand
  | .nop => noOperand
  | .lda _ x => x
  | .ldb _ x => x
  | .sta _ x => x
  | .stb _ x => x
  | .add => noOperand
  | .sub => noOperand
  | .mul => noOperand
  | .div => noOperand
  | .rts => noOperand
  | .inp => noOperand
  | .out => noOperand
  | .hlt => noOperand
  | .jsb x => x
  | .jmp x => x
  | .jsp x => x
  | .jsn x => x
  | .jiz x => x
  | .jof x => x

/-- The canonical word of an instruction (R114, R122). -/
def encode (l : Layout) (i : Instr) : Word :=
  pack l i.opcode.number i.mode.bits i.operand

/-- The same instruction fields in another layout: the word of R104 for the fields that `w` has under
`l`. -/
def relayout (l l' : Layout) (w : Word) : Word :=
  pack l' (opcField l w) (modeField l w) (opndField l w)

/-- The instruction the decoder reads from an opcode-table word: `w`'s low `nbits` bits as one 32-bit
cell under the table's layout, LSB_FIRST (R100, R101). -/
def decodeTableWord (nbits w : Nat) : Option Instr :=
  match decode .lsbFirst (BitVec.ofNat 32 (w % 2 ^ nbits)) with
  | .ok i => some i
  | .unknownInstruction => none
  | .invalidInstruction => none

end Sys2Proof
end

