-- ==== Sys2Proof/Machine/State.lean ====
section
/-! DEFINITION. Machine/State.lean: the complete state of the block (10_state.md R37), the host's commands and the
block's responses (R39, R40), the reasons a step can stop, and the state after reset (R42). -/

namespace Sys2Proof.Machine

/-- The memory store M: (address, cell) pairs, addresses strictly rising, an address being listed
exactly when it is initialized (20_memory.md R61, R68; log 6 [DEDUCED]). -/
abbrev Store := List (Nat × Word)

/-- A finite set of Addresses as a strictly rising list (R31, R33, R68). -/
abbrev AddrSet := List Nat

/-- The statuses a command returns, in the order of their codes (60_exceptions.md R290). -/
inductive Status where
  | ok
  | breakpoint
  | endOfProgram
  | divideByZero
  | unknownInstruction
  | invalidInstruction
  | outOfMemory
  | notFound
  | invalidState
deriving DecidableEq, Repr

/-- The result values a command returns with its status (R39). -/
inductive Result where
  /-- No result values. -/
  | nothing
  /-- SP_GET: an Address. -/
  | address (a : Addr)
  /-- ENCODE: a cell. -/
  | word (w : Word)
  /-- DECODE: canonical text. -/
  | text (t : Text)
  /-- BP_LIST: an ascending list of Address. -/
  | addresses (as : List Nat)
  /-- PATCH and CHANGE_QUERY: a change report. -/
  | change (a : Addr) (w : Word)
  /-- TRACE_DRAIN: an ascending list of change reports. -/
  | changes (cs : List (Nat × Word))
  /-- STATUS: A, B, Z, N, O, PC. -/
  | registers (a b : Word) (z n o : Bool) (pc : Addr)
deriving DecidableEq, Repr

/-- What the command port returns: exactly one status, with the command's result values (R39, R40). -/
structure Response where
  status : Status
  result : Result
deriving DecidableEq, Repr

/-- The commands of the host, in the order of the table of R39. -/
inductive Command where
  | reset (image : List (Addr × Word))
  | step
  | run
  | exec (text : Text)
  | patch (a : Addr) (text : Text)
  | encode (text : Text)
  | decode (w : Word)
  | bpSet (a : Addr)
  | bpDel (a : Addr)
  | bpList
  | spGet
  | spSet (a : Addr)
  | stackTraceSet (b : Bool)
  | traceSet (b : Bool)
  | status
  | changeQuery
  | traceDrain
deriving DecidableEq, Repr

/-- The state. `a` to `outLog` are the record of R37. `params` is the configuration of 00_scope.md R7,
which no step writes. `input` is IN, the values the host has supplied and INP has not consumed
(R36). `port` and `response` are the model's own: the commands the host has issued and not had
answered, and the answer to the last one, or nothing while a command has not returned. -/
structure State where
  params : Params
  a : Word
  b : Word
  z : Bool
  n : Bool
  o : Bool
  pc : Addr
  sp : Addr
  mem : Store
  bp : AddrSet
  lwAddr : Addr
  lwDirty : Bool
  traceSet : AddrSet
  traceEn : Bool
  stackTrace : Bool
  outLog : List Word
  input : List Word
  port : List Command
  response : Option Response
deriving DecidableEq, Repr

/-- Why a step can stop. With the default parameters no instruction and no command raises
either. -/
inductive Fault where
  /-- Raised by DIV of -2^31 by -1 when the parameter DIV_OVF is UNDEFINED: the model fault the spec
  itself names for that value (42_arithmetic.md R210, 60_exceptions.md R295). Safe. -/
  | divOverflowUndefined
  /-- Raised by the host command RESET when its image holds more than CELL_CAPACITY cells, which the
  spec says it must not (70_reset_and_hazards.md R323; log 9 [DESIGN CHOICE]). Safe. -/
  | imageOverCapacity
deriving DecidableEq, Repr

/-- Why an instruction can be refused. -/
inductive Refusal where
  /-- Raised by an arm of `exec` whose instruction has no meaning yet. No arm raises it. Safe. -/
  | notModelled (mnemonic : String)
deriving DecidableEq, Repr

/-- The machine right after RESET with an empty image and the default parameters (R42, R320, R322).
RESET returns OK. LW_ADDR is unspecified there and held as 0 (log 7 [DESIGN CHOICE]); IN and the port are empty
(log 3 [DESIGN CHOICE], log 5 [DESIGN CHOICE]). -/
def State.reset : State where
  params := Params.default
  a := 0#32
  b := 0#32
  z := false
  n := false
  o := false
  pc := 0#32
  sp := 0xFFFFFFFF#32
  mem := []
  bp := []
  lwAddr := 0#32
  lwDirty := false
  traceSet := []
  traceEn := false
  stackTrace := false
  outLog := []
  input := []
  port := []
  response := some { status := .ok, result := .nothing }

end Sys2Proof.Machine
end

