-- ==== Sys2Proof/Machine/Ops.lean ====
section
/-! DEFINITION. Machine/Ops.lean: the named operations over addresses, the memory store, the change tracker and the
registers, and the one operation by which a command reports a status (20_memory.md, 40_execution_engine.md
R147 and R148, 60_exceptions.md R301). -/

namespace Sys2Proof.Machine

/-! ### Addresses -/

/-- A 32-bit pattern as an Address: its unsigned value modulo 2^ADDR_W (R9 wrap, R28, R73). -/
def toAddr (p : Params) (w : Word) : Addr := BitVec.ofNat 32 (w.toNat % 2 ^ p.addrW)

/-! ### The memory store and the address sets -/

/-- The cell stored at an address, nothing when the address is uninitialized (R61). -/
def storeGet : Store → Nat → Option Word
  | [], _ => none
  | (k, v) :: rest, a => if a = k then some v else storeGet rest a

/-- Store a cell: overwrite it if its address is listed, insert it in order if not (R61, R64, R68). -/
def storePut : Store → Nat → Word → Store
  | [], a, v => [(a, v)]
  | (k, w) :: rest, a, v =>
    if a < k then (a, v) :: (k, w) :: rest
    else if a = k then (a, v) :: rest
    else (k, w) :: storePut rest a v

/-- Add an address to a set in ascending order; duplicates collapse (R31, R66, R68). -/
def setInsert : AddrSet → Nat → AddrSet
  | [], a => [a]
  | k :: rest, a =>
    if a < k then a :: k :: rest
    else if a = k then k :: rest
    else k :: setInsert rest a

/-- Remove an address from a set (R261). -/
def setRemove (l : AddrSet) (a : Nat) : AddrSet := l.filter (fun k => k != a)

/-- Whether the store holds its canonical form: addresses strictly rising, each below the limit (R61
"at most one cell per address", R68). What an unlisted address holds is no cell, so no entry can
equal it (log 6 [DEDUCED]). -/
abbrev storeWf (limit : Nat) (m : Store) : Prop :=
  m.Pairwise (fun x y => x.1 < y.1) ∧ ∀ x ∈ m, x.1 < limit

/-- Whether an address set holds its canonical form: strictly rising, each address below the limit. -/
abbrev setWf (limit : Nat) (l : AddrSet) : Prop :=
  l.Pairwise (fun x y => x < y) ∧ ∀ x ∈ l, x < limit

/-- Whether a count has reached a capacity; an unbounded capacity is never reached (R64). -/
def atCapacity (count : Nat) (capacity : Option Nat) : Bool := capacity == some count

/-! ### Reads, writes and the change tracker -/

/-- `MemRead(addr, 1)`: the cell, or UNINIT when the address is uninitialized; it never fails and
changes nothing (R62). -/
def memRead (s : State) (addr : Addr) : Word := (storeGet s.mem addr.toNat).getD s.params.uninit

/-- `ChangeNotify(addr)`: the change tracker's view of one observed write (R66). -/
def changeNotify (s : State) (addr : Addr) : State :=
  { s with
    lwAddr := addr
    lwDirty := true
    traceSet := if s.traceEn then setInsert s.traceSet addr.toNat else s.traceSet }

/-- Whether a write to `addr` fails for want of a cell or of a trace entry (R64, R65). -/
def writeFails (s : State) (addr : Addr) (suppress : Bool) : Bool :=
  let newcell := (storeGet s.mem addr.toNat).isNone
  let newtrace := !suppress && s.traceEn && !(s.traceSet.contains addr.toNat)
  (newcell && atCapacity s.mem.length s.params.cellCapacity)
    || (newtrace && atCapacity s.traceSet.length s.params.traceCapacity)

/-- `MemWrite(addr, 1, v, suppress)`: both capacity checks come before any effect; nothing is
OutOfMemory (R64). -/
def memWrite (s : State) (addr : Addr) (v : Word) (suppress : Bool) : Option State :=
  if writeFails s addr suppress then none
  else
    let s' := { s with mem := storePut s.mem addr.toNat v }
    some (if suppress then s' else changeNotify s' addr)

/-! ### Registers -/

/-- `advance`: PC + 1 modulo 2^ADDR_W (R28, R147). -/
def State.advance (s : State) : State := { s with pc := toAddr s.params (s.pc + 1#32) }

/-! ### Reporting a status -/

/-- The command returns a status with result values (R39, R40; log 2 [DEDUCED]). -/
def State.reply (s : State) (st : Status) (r : Result) : State :=
  { s with response := some { status := st, result := r } }

/-- The command has not returned. -/
def State.pending (s : State) : State := { s with response := none }

/-- TAKING AN EXCEPTION: `raise E` and `signal E`. The block has no trap entry: it saves nothing, vectors
nowhere and changes no mode; the failing command returns E and leaves the state exactly as it was
(R12, R301). There is no return from it (R302). -/
def raise (e : Status) (s : State) : Host.Outcome State Fault Refusal := .next (s.reply e .nothing)

/-- A handler that completes: its staged writes are committed and the status is OK (R141, R148). -/
def complete (s : State) : Host.Outcome State Fault Refusal := .next (s.reply .ok .nothing)

/-- Apply a function to the next state of an outcome. -/
def onNext (f : State → State) : Host.Outcome State Fault Refusal → Host.Outcome State Fault Refusal
  | .next s => .next (f s)
  | .fault r => .fault r
  | .refused r => .refused r

/-- Commit a handler whose one MemWrite comes before its register writes: when the write fails, none of
the staged writes take effect and the status is OutOfMemory (R148). -/
def commitWrite (s : State) (addr : Addr) (v : Word) (suppress : Bool) (rest : State → State) :
    Host.Outcome State Fault Refusal :=
  match memWrite s addr v suppress with
  | none => raise .outOfMemory s
  | some s' => complete (rest s')

/-- The numeric code of a status (R290). -/
def Status.code : Status → Nat
  | .ok => 0
  | .breakpoint => 1
  | .endOfProgram => 2
  | .divideByZero => 3
  | .unknownInstruction => 4
  | .invalidInstruction => 5
  | .outOfMemory => 6
  | .notFound => 7
  | .invalidState => 8

/-! ### What the host does outside a command -/

/-- The host supplies values for INP: they join the end of IN (R36, R222). -/
def State.supply (s : State) (vs : List Word) : State := { s with input := s.input ++ vs }

/-- The host issues commands: they join the end of the port (R39). -/
def State.issue (s : State) (cs : List Command) : State := { s with port := s.port ++ cs }

end Sys2Proof.Machine
end

