-- ==== Sys2Proof/Machine/Operands.lean ====
section
/-! DEFINITION. Machine/Operands.lean: the operand forms (30_encoding.md R111 to R113, 40_execution_engine.md R144,
R145). -/

namespace Sys2Proof.Machine

/-- `sext_32`: bits 31..24 all equal the operand's bit 23 (R10, R111). -/
def sext32 (x : Operand) : Word := x.signExtend 32

/-- `zext_32`: bits 31..24 are zero (R10, R112). -/
def zext32 (x : Operand) : Word := x.setWidth 32

/-- `wrap32`: the 32-bit pattern of an integer modulo 2^32 (R9). -/
def wrap32 (n : Int) : Word := BitVec.ofInt 32 n

/-- The Address that the pointer cell at the operand's address names (R73, R113). -/
def pointerAt (s : State) (x : Operand) : Addr := toAddr s.params (memRead s (zext32 x))

/-- `load_value(m, x)`: nothing for the indexed mode, which decode rejects (R144). -/
def loadValue (s : State) (m : Mode) (x : Operand) : Option Word :=
  match m with
  | .imm => some (sext32 x)
  | .dir => some (memRead s (zext32 x))
  | .ind => some (memRead s (pointerAt s x))
  | .idx => none

/-- `store_addr(m, x)`: nothing for the immediate and indexed modes, which decode rejects (R145). -/
def storeAddr (s : State) (m : Mode) (x : Operand) : Option Addr :=
  match m with
  | .imm => none
  | .dir => some (zext32 x)
  | .ind => some (pointerAt s x)
  | .idx => none

/-- The target of a jump (R112, 44_control_transfer.md). -/
def jumpTarget (x : Operand) : Addr := zext32 x

end Sys2Proof.Machine
end

