-- ==== Sys2Proof/Machine/Assembler.lean ====
section
/-! DEFINITION. Machine/Assembler.lean: the one-instruction assembler (ENCODE) and disassembler (DECODE) of the codec,
and the program image that the excluded loader builds with it (30_encoding.md R115 to R128,
70_reset_and_hazards.md R325, R326). -/

namespace Sys2Proof.Machine

/-! ### The grammar (R115) -/

/-- `ws`: a space or a tab. -/
def isWs (c : Char) : Bool := c == ' ' || c == '\t'

/-- A non-white-space character. -/
def isToken (c : Char) : Bool := !isWs c

/-- The value of a decimal digit. -/
def digitValue (c : Char) : Option Nat :=
  if 48 ≤ c.toNat ∧ c.toNat ≤ 57 then some (c.toNat - 48) else none

/-- The number that digits denote, continued from `acc`. -/
def parseDigits : Nat → Text → Option Nat
  | acc, [] => some acc
  | acc, c :: cs =>
    match digitValue c with
    | none => none
    | some d => parseDigits (10 * acc + d) cs

/-- `nat ::= digit+`. -/
def parseNat (t : Text) : Option Nat :=
  match t with
  | [] => none
  | c :: cs => parseDigits 0 (c :: cs)

/-- `int ::= "-"? digit+`. -/
def parseInt (t : Text) : Option Int :=
  match t with
  | [] => none
  | c :: cs =>
    if c = '-' then (parseNat cs).map (fun (n : Nat) => -(n : Int))
    else (parseNat (c :: cs)).map (fun (n : Nat) => (n : Int))

/-- The source form of an instruction: bare, `#N`, `N` or `(N)`. -/
inductive Form where
  | bare
  | imm (n : Int)
  | dir (n : Nat)
  | ind (n : Nat)
deriving DecidableEq, Repr

/-- `nat ")"`, the rest of an indirect operand. -/
def parseClosed (t : Text) : Option Nat :=
  if t.getLast? = some ')' then parseNat t.dropLast else none

/-- `operand ::= "#" int | nat | "(" nat ")"`. -/
def parseOperand (t : Text) : Option Form :=
  match t with
  | [] => none
  | c :: cs =>
    if c = '#' then (parseInt cs).map Form.imm
    else if c = '(' then (parseClosed cs).map Form.ind
    else (parseNat (c :: cs)).map Form.dir

/-- What follows a known mnemonic: nothing, or one operand with only white space after it (R117). -/
def parseForm (rest : Text) : Option Form :=
  match rest.dropWhile isWs with
  | [] => some .bare
  | c :: cs =>
    if ((c :: cs).dropWhile isToken).all isWs then parseOperand ((c :: cs).takeWhile isToken)
    else none

/-- The mnemonic token of a text: its first run of non-white-space characters. -/
def mnemonicToken (t : Text) : Text := (t.dropWhile isWs).takeWhile isToken

/-- What follows the mnemonic token. -/
def afterMnemonic (t : Text) : Text := (t.dropWhile isWs).dropWhile isToken

/-- The opcode a mnemonic names, without regard to letter case (R116; log 17 [DESIGN CHOICE]). -/
def opcodeOfName (name : Text) : Option Opcode :=
  opcodeTable.find? (fun op => op.mnemonic == name.map Char.toUpper)

/-! ### ENCODE -/

/-- The forms a class permits: only the bare form for NONE, and for the others the forms of their
permitted modes (R118). -/
def formPermitted (op : Opcode) (f : Form) : Bool :=
  match op.cls, f with
  | .none, .bare => true
  | .load, .imm _ => true
  | .load, .dir _ => true
  | .load, .ind _ => true
  | .store, .dir _ => true
  | .store, .ind _ => true
  | .jump, .dir _ => true
  | _, _ => false

/-- The number ranges of R119. -/
def formInRange (f : Form) : Bool :=
  match f with
  | .bare => true
  | .imm n => decide (-8388608 ≤ n) && decide (n ≤ 8388607)
  | .dir n => decide (n ≤ 16777215)
  | .ind n => decide (n ≤ 16777215)

/-- The addressing mode a form is encoded with (R122). -/
def formMode (f : Form) : Mode :=
  match f with
  | .bare => .imm
  | .imm _ => .imm
  | .dir _ => .dir
  | .ind _ => .ind

/-- The operand field a form is encoded with (R122). -/
def formOperand (f : Form) : Operand :=
  match f with
  | .bare => noOperand
  | .imm n => BitVec.ofInt 24 n
  | .dir n => BitVec.ofNat 24 n
  | .ind n => BitVec.ofNat 24 n

/-- What the assembler makes of a text: the opcode and form it denotes, or the error verdict. -/
inductive Parsed where
  | ok (op : Opcode) (f : Form)
  | unknownInstruction
  | invalidInstruction
deriving DecidableEq, Repr

/-- The verdicts of ENCODE in their order: mnemonic, syntax, form, range (R120). -/
def parseText (t : Text) : Parsed :=
  match opcodeOfName (mnemonicToken t) with
  | none => .unknownInstruction
  | some op =>
    match parseForm (afterMnemonic t) with
    | none => .invalidInstruction
    | some f =>
      if formPermitted op f then
        if formInRange f then .ok op f else .invalidInstruction
      else .invalidInstruction

/-- The verdict of ENCODE (R115, R122). -/
inductive Encoded where
  | ok (w : Word)
  | unknownInstruction
  | invalidInstruction
deriving DecidableEq, Repr

/-- ENCODE(text) (R122). -/
def encodeText (l : Layout) (t : Text) : Encoded :=
  match parseText t with
  | .ok op f => .ok (pack l op.number (formMode f).bits (formOperand f))
  | .unknownInstruction => .unknownInstruction
  | .invalidInstruction => .invalidInstruction

/-! ### DECODE -/

/-- The character of a decimal digit. -/
def digitChar (d : Nat) : Char := Char.ofNat (48 + d)

/-- The decimal digits of a number, before those already written. -/
def decimalFrom : Nat → Nat → Text → Text
  | 0, _, acc => acc
  | fuel + 1, n, acc =>
    if n / 10 = 0 then digitChar (n % 10) :: acc
    else decimalFrom fuel (n / 10) (digitChar (n % 10) :: acc)

/-- A number in decimal. -/
def decimal (n : Nat) : Text := decimalFrom (n + 1) n []

/-- An integer in decimal, with `-` when negative. -/
def signedDecimal (n : Int) : Text := if n < 0 then '-' :: decimal n.natAbs else decimal n.natAbs

/-- The operand of the canonical text; the indexed mode has no syntax (R105, R124). -/
def operandText (m : Mode) (x : Operand) : Text :=
  match m with
  | .imm => '#' :: signedDecimal (sext32 x).toInt
  | .dir => decimal (zext32 x).toNat
  | .ind => '(' :: decimal (zext32 x).toNat ++ [')']
  | .idx => []

/-- The canonical text of an instruction: the uppercase mnemonic and, for classes other than NONE, one
space and the operand (R124). -/
def canonicalText (i : Instr) : Text :=
  match i.opcode.cls with
  | .none => i.opcode.mnemonic
  | .load => i.opcode.mnemonic ++ ' ' :: operandText i.mode i.operand
  | .store => i.opcode.mnemonic ++ ' ' :: operandText i.mode i.operand
  | .jump => i.opcode.mnemonic ++ ' ' :: operandText i.mode i.operand

/-! ### The program image -/

/-- The cell of one source line: its encoding, or the canonical NOP for an empty line or a line ENCODE
rejects (R326). -/
def lineCell (l : Layout) (line : Text) : Word :=
  match encodeText l line with
  | .ok w => w
  | .unknownInstruction => encode l .nop
  | .invalidInstruction => encode l .nop

/-- The cells of lines placed one after another from an address (R325). -/
def imageFrom (p : Params) : Addr → List Text → List (Addr × Word)
  | _, [] => []
  | a, line :: rest => (toAddr p a, lineCell p.layout line) :: imageFrom p (a + 1#32) rest

/-- The image the loader gives RESET: the i-th line's cell at LOAD_BASE + i (R325). -/
def programImage (p : Params) (lines : List Text) : List (Addr × Word) :=
  imageFrom p p.loadBase lines

end Sys2Proof.Machine
end

