-- ==== Sys2Proof/Machine/Flags.lean ====
section
/-! DEFINITION. Machine/Flags.lean: the flag updates, the ALU and its floating-point-shadow overflow detector
(10_state.md R24 to R27, 40_execution_engine.md R146, 42_arithmetic.md R200 to R205). -/

namespace Sys2Proof.Machine

/-! ### Z and N -/

/-- `setZN(v)` (R146). -/
def State.setZN (s : State) (v : Word) : State :=
  { s with z := decide (v.toInt = 0), n := decide (v.toInt < 0) }

/-! ### The ALU -/

/-- The four operations of the ALU (R200). -/
inductive AluOp where
  | add
  | sub
  | mul
  | div
deriving DecidableEq, Repr

/-- The exact integer result: a quotient is rounded toward zero (R200). -/
def aluExact (op : AluOp) (a b : Int) : Int :=
  match op with
  | .add => a + b
  | .sub => a - b
  | .mul => a * b
  | .div => a.tdiv b

/-- `alu_int(op, a, b)`: the exact result wrapped to 32 bits (R200). -/
def aluInt (op : AluOp) (a b : Int) : Word := wrap32 (aluExact op a b)

/-! ### IEEE 754 arithmetic of the shadow (R201)

A floating-point value is a sign, a significand and a power of two. Every value the detector meets is
zero or lies, in magnitude, between 2^-32 and 2^64, far inside the normal range of both formats, so no
infinity, NaN or subnormal arises and no exponent bound is needed (log 10 [DEDUCED]). -/

/-- The number (-1)^neg * sig * 2^exp; a significand of 0 is +0 or -0. -/
structure Fp where
  neg : Bool
  sig : Nat
  exp : Int
deriving DecidableEq, Repr

/-- The precision of a format: the bits of its significand, the leading one included. -/
def fpPrecision : ShadowFp → Nat
  | .binary64 => 53
  | .binary32 => 24

/-- `num / den` to the nearest integer, ties to even. -/
def divNearestEven (num den : Nat) : Nat :=
  let q := num / den
  let r := num % den
  if 2 * r < den then q
  else if 2 * r > den then q + 1
  else if q % 2 = 0 then q
  else q + 1

/-- `n * 2^e` as a fraction: its numerator. -/
def scaleNum (n : Nat) (e : Int) : Nat := n * 2 ^ e.toNat

/-- The power of two that a value of magnitude num / den has its significand counted in, so that the
significand has `prec` bits. The first candidate puts the quotient between 2^(prec-1) and 2^(prec+1). -/
def fpExponent (prec num den : Nat) : Int :=
  let e : Int := (num.log2 : Int) - (den.log2 : Int) - (prec : Int)
  if scaleNum num (-e) / scaleNum den e < 2 ^ prec then e else e + 1

/-- The number (-1)^neg * num / den rounded to the format, to nearest, ties to even. -/
def fpRound (fmt : ShadowFp) (neg : Bool) (num den : Nat) : Fp :=
  if num = 0 then { neg := neg, sig := 0, exp := 0 }
  else
    let e := fpExponent (fpPrecision fmt) num den
    { neg := neg, sig := divNearestEven (scaleNum num (-e)) (scaleNum den e), exp := e }

/-- `toFP(v)`: an integer converted to the format (R201). -/
def toFp (fmt : ShadowFp) (v : Int) : Fp := fpRound fmt (decide (v < 0)) v.natAbs 1

/-- The signed significand of a value when its exponent is lowered to `e`. -/
def fpAligned (x : Fp) (e : Int) : Int :=
  let m : Int := (scaleNum x.sig (x.exp - e) : Int)
  if x.neg then -m else m

/-- Floating-point addition. An exact zero sum is +0 unless both operands are negative. -/
def fpAdd (fmt : ShadowFp) (x y : Fp) : Fp :=
  let e := min x.exp y.exp
  let m := fpAligned x e + fpAligned y e
  let neg := if m = 0 then x.neg && y.neg else decide (m < 0)
  fpRound fmt neg (scaleNum m.natAbs e) (scaleNum 1 (-e))

/-- The negated value. -/
def fpNeg (x : Fp) : Fp := { x with neg := !x.neg }

/-- Floating-point subtraction. -/
def fpSub (fmt : ShadowFp) (x y : Fp) : Fp := fpAdd fmt x (fpNeg y)

/-- Floating-point multiplication. -/
def fpMul (fmt : ShadowFp) (x y : Fp) : Fp :=
  let e := x.exp + y.exp
  fpRound fmt (x.neg != y.neg) (scaleNum (x.sig * y.sig) e) (scaleNum 1 (-e))

/-- Floating-point division by a non-zero value; DIV raises DivideByZero before it could divide by
zero. -/
def fpDiv (fmt : ShadowFp) (x y : Fp) : Fp :=
  let e := x.exp - y.exp
  fpRound fmt (x.neg != y.neg) (scaleNum x.sig e) (scaleNum y.sig (-e))

/-- `fp_op(op, fa, fb)` (R201). -/
def fpOp (fmt : ShadowFp) (op : AluOp) (x y : Fp) : Fp :=
  match op with
  | .add => fpAdd fmt x y
  | .sub => fpSub fmt x y
  | .mul => fpMul fmt x y
  | .div => fpDiv fmt x y

/-- IEEE equality of values: +0 equals -0 (R201). -/
def fpEq (x y : Fp) : Bool :=
  fpAligned x (min x.exp y.exp) == fpAligned y (min x.exp y.exp)

/-- `mismatch(op, a, b, r)`: the overflow detector (R201). -/
def mismatch (fmt : ShadowFp) (op : AluOp) (a b : Int) (r : Word) : Bool :=
  !fpEq (fpOp fmt op (toFp fmt a) (toFp fmt b)) (toFp fmt r.toInt)

/-- How an arithmetic instruction writes O (R205). -/
def newO (mode : OUpdate) (old found : Bool) : Bool :=
  match mode with
  | .assign => found
  | .sticky => old || found

/-- What an arithmetic instruction commits: the result to A, Z and N from it, O from the detector, and
the advance of PC (R206 to R209). -/
def arith (op : AluOp) (s : State) : State :=
  let r := aluInt op s.a.toInt s.b.toInt
  let found := mismatch s.params.shadowFp op s.a.toInt s.b.toInt r
  ({ (({ s with a := r }).setZN r) with o := newO s.params.oUpdate s.o found }).advance

end Sys2Proof.Machine
end

