-- ==== Sys2Proof/Machine/Arithmetic.lean ====
section
/-! DEFINITION. Machine/Arithmetic.lean: the meanings of ADD, SUB, MUL and DIV (42_arithmetic.md). -/

namespace Sys2Proof.Machine

/-- ADD, add B to A (R206). -/
def execAdd (s : State) : Host.Outcome State Fault Refusal := complete (arith .add s)

/-- SUB, subtract B from A (R207). -/
def execSub (s : State) : Host.Outcome State Fault Refusal := complete (arith .sub s)

/-- MUL, multiply A by B (R208). -/
def execMul (s : State) : Host.Outcome State Fault Refusal := complete (arith .mul s)

/-- Whether DIV meets the one overflowing quotient, -2^31 / -1 (R209). -/
def divOverflows (s : State) : Bool := s.a.toInt == -2147483648 && s.b.toInt == -1

/-- DIV, divide A by B (R209). The fault is the model fault the spec names for DIV_OVF = UNDEFINED
(R210; log 11 [DEDUCED]). -/
def execDiv (s : State) : Host.Outcome State Fault Refusal :=
  if s.b.toInt = 0 then raise .divideByZero s
  else if divOverflows s && s.params.divOvf == .undefined then .fault .divOverflowUndefined
  else complete (arith .div s)

end Sys2Proof.Machine
end

