-- ==== Sys2Proof/Machine/ControlTransfer.lean ====
section
/-! DEFINITION. Machine/ControlTransfer.lean: the meanings of JMP, JSP, JSN, JIZ, JOF, JSB and RTS
(44_control_transfer.md). -/

namespace Sys2Proof.Machine

/-- Go to the target when the condition holds, to the next cell when not. -/
def jumpIf (c : Bool) (x : Operand) (s : State) : Host.Outcome State Fault Refusal :=
  complete (if c then { s with pc := jumpTarget x } else s.advance)

/-- JMP, jump (R230). -/
def execJmp (x : Operand) (s : State) : Host.Outcome State Fault Refusal := jumpIf true x s

/-- JSP, jump if strictly positive (R231). -/
def execJsp (x : Operand) (s : State) : Host.Outcome State Fault Refusal := jumpIf (!s.z && !s.n) x s

/-- JSN, jump if negative (R232). -/
def execJsn (x : Operand) (s : State) : Host.Outcome State Fault Refusal := jumpIf s.n x s

/-- JIZ, jump if zero (R233). -/
def execJiz (x : Operand) (s : State) : Host.Outcome State Fault Refusal := jumpIf s.z x s

/-- JOF, jump on overflow (R234). -/
def execJof (x : Operand) (s : State) : Host.Outcome State Fault Refusal := jumpIf s.o x s

/-- The return address JSB pushes (R235). -/
def returnAddr (s : State) : Word := toAddr s.params (s.pc + 1#32)

/-- JSB, jump to subroutine: push the return address at SP, then decrement SP. The push bypasses the
change tracker while STACK_TRACE is 0 (R235, R67). -/
def execJsb (x : Operand) (s : State) : Host.Outcome State Fault Refusal :=
  commitWrite s s.sp (returnAddr s) (!s.stackTrace)
    (fun t => { t with sp := toAddr s.params (s.sp - 1#32), pc := jumpTarget x })

/-- The cell RTS pops: SP + 1 (R236, 90_conflicts.md C1). -/
def popAddr (s : State) : Addr := toAddr s.params (s.sp + 1#32)

/-- RTS, return from subroutine: increment SP, then read the return address there (R236). -/
def execRts (s : State) : Host.Outcome State Fault Refusal :=
  complete { s with sp := popAddr s, pc := toAddr s.params (memRead s (popAddr s)) }

end Sys2Proof.Machine
end

