-- ==== Sys2Proof/Machine/InputOutput.lean ====
section
/-! DEFINITION. Machine/InputOutput.lean: the meanings of INP and OUT (43_io.md). -/

namespace Sys2Proof.Machine

/-- INP, input a number into A (R220). With no value in IN the instruction waits: nothing changes and
the command does not return until a value is supplied (R222; log 5 [DESIGN CHOICE]). -/
def execInp (s : State) : Host.Outcome State Fault Refusal :=
  match s.input with
  | [] => .next s.pending
  | v :: rest => complete ({ (({ s with a := v, input := rest }).setZN v) with o := false }).advance

/-- OUT, output A (R221). -/
def execOut (s : State) : Host.Outcome State Fault Refusal :=
  complete ({ s with outLog := s.outLog ++ [s.a] }).advance

end Sys2Proof.Machine
end

