-- ==== Sys2Proof/Machine/LoadStore.lean ====
section
/-! DEFINITION. Machine/LoadStore.lean: the meanings of LDA, LDB, STA and STB (41_load_store.md). -/

namespace Sys2Proof.Machine

/-- LDA, load register A (R180). A term in the indexed mode is no word of the decoder's and answers
InvalidInstruction (R109; log 13 [DESIGN CHOICE]). -/
def execLda (m : Mode) (x : Operand) (s : State) : Host.Outcome State Fault Refusal :=
  match loadValue s m x with
  | none => raise .invalidInstruction s
  | some v => complete ({ (({ s with a := v }).setZN v) with o := false }).advance

/-- LDB, load register B; it updates no flags (R181). -/
def execLdb (m : Mode) (x : Operand) (s : State) : Host.Outcome State Fault Refusal :=
  match loadValue s m x with
  | none => raise .invalidInstruction s
  | some v => complete ({ s with b := v }).advance

/-- STA, store register A (R182). -/
def execSta (m : Mode) (x : Operand) (s : State) : Host.Outcome State Fault Refusal :=
  match storeAddr s m x with
  | none => raise .invalidInstruction s
  | some ea => commitWrite s ea s.a false State.advance

/-- STB, store register B (R183). -/
def execStb (m : Mode) (x : Operand) (s : State) : Host.Outcome State Fault Refusal :=
  match storeAddr s m x with
  | none => raise .invalidInstruction s
  | some ea => commitWrite s ea s.b false State.advance

end Sys2Proof.Machine
end

