-- ==== Sys2Proof/Machine/NopHalt.lean ====
section
/-! DEFINITION. Machine/NopHalt.lean: the meanings of NOP and HLT (45_nop_halt.md). -/

namespace Sys2Proof.Machine

/-- NOP, no operation (R250). -/
def execNop (s : State) : Host.Outcome State Fault Refusal := complete s.advance

/-- HLT, halt: it signals EndOfProgram, a termination and not a failure; nothing is written and PC is
not advanced (R251). -/
def execHlt (s : State) : Host.Outcome State Fault Refusal := raise .endOfProgram s

end Sys2Proof.Machine
end

