-- ==== Sys2Proof/Machine/Dispatch.lean ====
section
/-! DEFINITION. Machine/Dispatch.lean: HANDLER, the map from each opcode to its rule (40_execution_engine.md R149). -/

namespace Sys2Proof.Machine

def exec (i : Instr) (s : State) : Host.Outcome State Fault Refusal :=
  match i with
  | .nop => Sys2Proof.Machine.execNop s
  | .lda m x => Sys2Proof.Machine.execLda m x s
  | .ldb m x => Sys2Proof.Machine.execLdb m x s
  | .sta m x => Sys2Proof.Machine.execSta m x s
  | .stb m x => Sys2Proof.Machine.execStb m x s
  | .add => Sys2Proof.Machine.execAdd s
  | .sub => Sys2Proof.Machine.execSub s
  | .mul => Sys2Proof.Machine.execMul s
  | .div => Sys2Proof.Machine.execDiv s
  | .rts => Sys2Proof.Machine.execRts s
  | .inp => Sys2Proof.Machine.execInp s
  | .out => Sys2Proof.Machine.execOut s
  | .hlt => Sys2Proof.Machine.execHlt s
  | .jsb x => Sys2Proof.Machine.execJsb x s
  | .jmp x => Sys2Proof.Machine.execJmp x s
  | .jsp x => Sys2Proof.Machine.execJsp x s
  | .jsn x => Sys2Proof.Machine.execJsn x s
  | .jiz x => Sys2Proof.Machine.execJiz x s
  | .jof x => Sys2Proof.Machine.execJof x s

end Sys2Proof.Machine
end

