-- ==== Sys2Proof/Machine/Engine.lean ====
section
/-! DEFINITION. Machine/Engine.lean: the fetch-decode-execute state machine with its breakpoint check, STEP and RUN
(40_execution_engine.md). -/

namespace Sys2Proof.Machine

/-- FETCH: the cell at PC; it never fails and marks no change (R142). -/
def fetch (s : State) : Word := memRead s s.pc

/-- `execute(w, commit)` (R141). A decode error ends the command before any operand is read (R143).
Without commit, PC returns to its value before the execute and everything else remains (R150, 90_conflicts.md C3). -/
def execute (w : Word) (commit : Bool) (s : State) : Host.Outcome State Fault Refusal :=
  match decode s.params.layout w with
  | .unknownInstruction => raise .unknownInstruction s
  | .invalidInstruction => raise .invalidInstruction s
  | .ok i => onNext (fun t => if commit then t else { t with pc := s.pc }) (exec i s)

/-- Whether the last command returned OK. -/
def returnedOk (s : State) : Bool := s.response == some { status := .ok, result := .nothing }

/-- BREAKPOINT-CHECK: after an execute that returned OK, a new PC in BP gives Breakpoint (R151, R152). -/
def checkBreakpoint (s : State) : State :=
  if returnedOk s && s.bp.contains s.pc.toNat then s.reply .breakpoint .nothing else s

/-- STEP (R151). -/
def stepCommand (s : State) : Host.Outcome State Fault Refusal :=
  onNext checkBreakpoint (execute (fetch s) true s)

/-- One turn of RUN's loop: a step that returned OK leaves RUN not yet returned, any other status is
RUN's own (R153). -/
def runTurn (s : State) : Host.Outcome State Fault Refusal :=
  onNext (fun t => if returnedOk t then t.pending else t) (stepCommand s)

end Sys2Proof.Machine
end

