-- ==== Sys2Proof/Machine/Debug.lean ====
section
/-! DEFINITION. Machine/Debug.lean: RESET, the debug services and the codec commands of the command port
(10_state.md R39, 46_debug_services.md, 70_reset_and_hazards.md R320 to R323). -/

namespace Sys2Proof.Machine

/-- The store that holds exactly an image's cells (R322). -/
def storeOfImage (p : Params) (image : List (Addr × Word)) : Store :=
  image.foldl (fun m c => storePut m (toAddr p c.1).toNat c.2) []

/-- Whether a store holds more cells than CELL_CAPACITY allows (R323). -/
def overCapacity (p : Params) (m : Store) : Bool :=
  match p.cellCapacity with
  | none => false
  | some c => decide (c < m.length)

/-- The state right after RESET(image): every piece at its value of R42 and nothing survives (R320). The
parameters are configuration, and IN and the port are the host's, so those three stay (log 15 [DEDUCED]). -/
def resetState (s : State) (image : List (Addr × Word)) : State where
  params := s.params
  a := 0#32
  b := 0#32
  z := false
  n := false
  o := false
  pc := toAddr s.params s.params.pcInit
  sp := toAddr s.params s.params.spInit
  mem := storeOfImage s.params image
  bp := []
  lwAddr := 0#32
  lwDirty := false
  traceSet := []
  traceEn := false
  stackTrace := false
  outLog := []
  input := s.input
  port := s.port
  response := some { status := .ok, result := .nothing }

/-- RESET (R320, R323; log 9 [DESIGN CHOICE]). -/
def cmdReset (image : List (Addr × Word)) (s : State) : Host.Outcome State Fault Refusal :=
  if overCapacity s.params (storeOfImage s.params image) then .fault .imageOverCapacity
  else .next (resetState s image)

/-- EXEC(text): assemble one instruction and execute it without committing PC; no breakpoint check
(R264). -/
def cmdExec (text : Text) (s : State) : Host.Outcome State Fault Refusal :=
  match encodeText s.params.layout text with
  | .unknownInstruction => raise .unknownInstruction s
  | .invalidInstruction => raise .invalidInstruction s
  | .ok w => execute w false s

/-- PATCH(a, text): assemble one instruction and write it, through the change tracker (R263). -/
def cmdPatch (a : Addr) (text : Text) (s : State) : Host.Outcome State Fault Refusal :=
  match encodeText s.params.layout text with
  | .unknownInstruction => raise .unknownInstruction s
  | .invalidInstruction => raise .invalidInstruction s
  | .ok w =>
    match memWrite s a w false with
    | none => raise .outOfMemory s
    | some t => .next (t.reply .ok (.change a (memRead t a)))

/-- ENCODE(text) (R122). -/
def cmdEncode (text : Text) (s : State) : Host.Outcome State Fault Refusal :=
  match encodeText s.params.layout text with
  | .unknownInstruction => raise .unknownInstruction s
  | .invalidInstruction => raise .invalidInstruction s
  | .ok w => .next (s.reply .ok (.word w))

/-- DECODE(w) (R123, R126). -/
def cmdDecode (w : Word) (s : State) : Host.Outcome State Fault Refusal :=
  match decode s.params.layout w with
  | .unknownInstruction => raise .unknownInstruction s
  | .invalidInstruction => raise .invalidInstruction s
  | .ok i => .next (s.reply .ok (.text (canonicalText i)))

/-- BP_SET(a) (R260). -/
def cmdBpSet (a : Addr) (s : State) : Host.Outcome State Fault Refusal :=
  complete { s with bp := setInsert s.bp a.toNat }

/-- BP_DEL(a) (R261). -/
def cmdBpDel (a : Addr) (s : State) : Host.Outcome State Fault Refusal :=
  if s.bp.contains a.toNat then complete { s with bp := setRemove s.bp a.toNat }
  else raise .notFound s

/-- BP_LIST (R262). -/
def cmdBpList (s : State) : Host.Outcome State Fault Refusal :=
  .next (s.reply .ok (.addresses s.bp))

/-- SP_GET (R265). -/
def cmdSpGet (s : State) : Host.Outcome State Fault Refusal :=
  .next (s.reply .ok (.address s.sp))

/-- SP_SET(a) (R266). -/
def cmdSpSet (a : Addr) (s : State) : Host.Outcome State Fault Refusal :=
  complete { s with sp := a }

/-- STACK_TRACE_SET(b) (R267). -/
def cmdStackTraceSet (b : Bool) (s : State) : Host.Outcome State Fault Refusal :=
  complete { s with stackTrace := b }

/-- TRACE_SET(b); clearing TRACE_EN does not empty the trace set (R268). -/
def cmdTraceSet (b : Bool) (s : State) : Host.Outcome State Fault Refusal :=
  complete { s with traceEn := b }

/-- STATUS (R269). -/
def cmdStatus (s : State) : Host.Outcome State Fault Refusal :=
  .next (s.reply .ok (.registers s.a s.b s.z s.n s.o s.pc))

/-- CHANGE_QUERY: the last-write slot with the current value, consumed once (R270). -/
def cmdChangeQuery (s : State) : Host.Outcome State Fault Refusal :=
  if s.lwDirty then
    .next (({ s with lwDirty := false }).reply .ok (.change s.lwAddr (memRead s s.lwAddr)))
  else raise .invalidState s

/-- The change reports of addresses, each with its current value (R66, R271). -/
def changeReports (s : State) (addrs : AddrSet) : List (Nat × Word) :=
  addrs.map (fun a => (a, memRead s (BitVec.ofNat 32 a)))

/-- TRACE_DRAIN: the trace set in ascending order with current values, and empties it (R271). -/
def cmdTraceDrain (s : State) : Host.Outcome State Fault Refusal :=
  .next (({ s with traceSet := [] }).reply .ok (.changes (changeReports s s.traceSet)))

/-- One command of the port (R39). An address argument names an Address of ADDR_W bits (log 8 [DESIGN CHOICE]). -/
def runCommand (c : Command) (s : State) : Host.Outcome State Fault Refusal :=
  match c with
  | .reset image => cmdReset image s
  | .step => stepCommand s
  | .run => runTurn s
  | .exec text => cmdExec text s
  | .patch a text => cmdPatch (toAddr s.params a) text s
  | .encode text => cmdEncode text s
  | .decode w => cmdDecode w s
  | .bpSet a => cmdBpSet (toAddr s.params a) s
  | .bpDel a => cmdBpDel (toAddr s.params a) s
  | .bpList => cmdBpList s
  | .spGet => cmdSpGet s
  | .spSet a => cmdSpSet (toAddr s.params a) s
  | .stackTraceSet b => cmdStackTraceSet b s
  | .traceSet b => cmdTraceSet b s
  | .status => cmdStatus s
  | .changeQuery => cmdChangeQuery s
  | .traceDrain => cmdTraceDrain s

/-- The command at the head of the port leaves it once it has returned (R39, R41; log 3 [DESIGN CHOICE], log 4 [DESIGN CHOICE]). -/
def retire (rest : List Command) (s : State) : State :=
  if s.response.isSome then { s with port := rest } else s

/-- The STEP that the host is taken to issue on an empty port. While its INP waits it has not returned, so
it stands on the port like an issued STEP: a command that the host issues meanwhile joins the port behind
it and acts only after it has returned (R41, 40_execution_engine.md R140, 70_reset_and_hazards.md R331; that the empty
port runs a STEP at all is log 3 [DESIGN CHOICE]). -/
def holdStep (s : State) : State := if s.response.isSome then s else { s with port := [.step] }

/-- One turn of the command port: its first command, or STEP when the host has issued none, and that STEP
is then on the port while it waits (log 3 [DESIGN CHOICE]). -/
def portTurn (s : State) : Host.Outcome State Fault Refusal :=
  match s.port with
  | [] => onNext holdStep (runCommand .step s)
  | c :: rest => onNext (retire rest) (runCommand c s)

/-- The given table word, in the state's own layout, in the cell that the next STEP fetches, with
nothing else on the port. It is a load from outside the machine and no MemWrite (R323; log 12 [DESIGN CHOICE]). -/
def placeWord (s : State) (w : Word) : State :=
  { s with mem := storePut s.mem s.pc.toNat (relayout .lsbFirst s.params.layout w), port := [] }

end Sys2Proof.Machine
end

