-- ==== Sys2Proof/Machine/Step.lean ====
section
/-! DEFINITION. Machine/Step.lean: one step of the machine, and the state whose next step runs a given instruction. -/

namespace Sys2Proof.Machine

/-- One step: one turn of the command port (10_state.md R39; log 3 [DESIGN CHOICE]). With nothing on the port it is the
host's STEP (40_execution_engine.md R151). -/
def step (s : State) : Host.Outcome State Fault Refusal := portTurn s

/-- `s` with the instruction whose bits are `w` in the cell that the next step fetches (log 12 [DESIGN CHOICE]). -/
def State.withFetchWord (s : State) (nbits w : Nat) : State :=
  placeWord s (BitVec.ofNat 32 (w % 2 ^ nbits))

end Sys2Proof.Machine
end

