-- ==== Sys2Proof/Safety.lean ====
section
/-! DEFINITION. Safety.lean: the terms in which claims about runs are made: the invariant of the block's state, and
what counts as going on. -/

namespace Sys2Proof.Machine

/-- A count within a capacity (00_scope.md R7). -/
def withinCapacity (count : Nat) (capacity : Option Nat) : Prop :=
  ∀ c, capacity = some c → count ≤ c

/-- Whether an address is initialized, that is, in dom(M) (20_memory.md R61). -/
def initialized (s : State) (k : Nat) : Prop := (storeGet s.mem k).isSome = true

/-- What the spec says of every state the block reaches. -/
structure Consistent (s : State) : Prop where
  /-- At most one cell per address, ascending, each an Address (R60, R61, R68). -/
  mem : storeWf (2 ^ s.params.addrW) s.mem
  /-- BP is a set of Addresses in ascending order (R31, R68). -/
  bp : setWf (2 ^ s.params.addrW) s.bp
  /-- TRACE_SET is a set of Addresses in ascending order (R33, R68). -/
  trace : setWf (2 ^ s.params.addrW) s.traceSet
  /-- PC has ADDR_W bits (R28). -/
  pc : s.pc.toNat < 2 ^ s.params.addrW
  /-- SP has ADDR_W bits (R29). -/
  sp : s.sp.toNat < 2 ^ s.params.addrW
  /-- LW_ADDR has ADDR_W bits (R32). -/
  lw : s.lwAddr.toNat < 2 ^ s.params.addrW
  /-- N and Z are never both 1 (R232). -/
  flags : ¬(s.n = true ∧ s.z = true)
  /-- The store holds at most CELL_CAPACITY cells (R64). -/
  cells : withinCapacity s.mem.length s.params.cellCapacity
  /-- The trace set holds at most TRACE_CAPACITY addresses (R64). -/
  traced : withinCapacity s.traceSet.length s.params.traceCapacity

/-- What the change tracker reports has been written: the last-write slot, while dirty, and every traced
address name initialized cells (R61, R66). -/
structure TrackerSound (s : State) : Prop where
  lw : s.lwDirty = true → initialized s s.lwAddr.toNat
  trace : ∀ k ∈ s.traceSet, initialized s k

/-- The outcome is a next state. -/
def goesOn (o : Host.Outcome State Fault Refusal) : Prop := ∃ t, o = .next t

/-- What a program can see: A, B, the flags, PC, SP, memory and the two I/O streams (10_state.md R30,
46_debug_services.md R273), with the parameters they are read under. -/
def sameProgramView (s t : State) : Prop :=
  s.params = t.params ∧ s.a = t.a ∧ s.b = t.b ∧ s.z = t.z ∧ s.n = t.n ∧ s.o = t.o ∧ s.pc = t.pc ∧
    s.sp = t.sp ∧ s.mem = t.mem ∧ s.outLog = t.outLog ∧ s.input = t.input

/-- Successive STEP commands that each returned OK (40_execution_engine.md R151, R153). -/
inductive OkSteps : Nat → State → State → Prop where
  | zero (s : State) : OkSteps 0 s s
  | succ (n : Nat) (s t u : State) : stepCommand s = .next t → returnedOk t = true →
      OkSteps n t u → OkSteps (n + 1) s u

/-! ### The words claims are made in -/

/-- The answer of a command that returns a status and no result values, as `State.response` holds it (10_state.md
R39, R40; log 2 [DEDUCED]). -/
abbrev answered (st : Status) : Option Response := some { status := st, result := .nothing }

/-- The address after PC, modulo 2^ADDR_W (R28). -/
def nextPc (s : State) : Addr := toAddr s.params (s.pc + 1#32)

/-- The state of an instruction that commits `v` to A with Z and N from it and clears O (LDA, INP). -/
def afterLoadA (s : State) (v : Word) : State :=
  { s with
    a := v, z := decide (v.toInt = 0), n := decide (v.toInt < 0), o := false, pc := nextPc s
    response := answered .ok }

/-- The state of an arithmetic instruction that commits the result `r` to A, Z and N from it, and O from
what the detector found (R205 to R209). -/
def afterArith (s : State) (r : Word) (found : Bool) : State :=
  { s with
    a := r, z := decide (r.toInt = 0), n := decide (r.toInt < 0)
    o := match s.params.oUpdate with
      | .assign => found
      | .sticky => s.o || found
    pc := nextPc s, response := answered .ok }

/-- Whether a write to `ea` has the cell and the trace entry it needs (20_memory.md R64): the address is
initialized or the store has room, and the write is suppressed, tracing is off, the address is
already traced, or the trace set has room. -/
def writeFits (s : State) (ea : Addr) (suppress : Bool) : Prop :=
  (initialized s ea.toNat ∨ s.params.cellCapacity ≠ some s.mem.length) ∧
    (suppress = true ∨ s.traceEn = false ∨ ea.toNat ∈ s.traceSet ∨
      s.params.traceCapacity ≠ some s.traceSet.length)

/-- The state after a cell is stored at `ea` and, unless suppressed, the change tracker has been told
(R64, R66). -/
def afterWrite (s : State) (ea : Addr) (v : Word) (suppress : Bool) : State :=
  if suppress then { s with mem := storePut s.mem ea.toNat v }
  else
    { s with
      mem := storePut s.mem ea.toNat v, lwAddr := ea, lwDirty := true
      traceSet := if s.traceEn then setInsert s.traceSet ea.toNat else s.traceSet }

/-- A NONE-class opcode: every mode and operand decode to the one instruction, in either layout
(30_encoding.md R108, R114). -/
def encodesBare (o : BitVec 6) (i : Instr) : Prop :=
  ∀ (l : Layout) (m : BitVec 2) (x : Operand), decode l (pack l o m x) = .ok i

/-- An opcode with an operand: the permitted modes decode to the instruction, the others are
InvalidInstruction, in either layout (R107, R108). -/
def encodesModes (o : BitVec 6) (permitted : List Mode) (i : Mode → Operand → Instr) : Prop :=
  ∀ (l : Layout) (m : Mode) (x : Operand),
    decode l (pack l o m.bits x) = if m ∈ permitted then .ok (i m x) else .invalidInstruction

end Sys2Proof.Machine
end

