-- ==== Sys2Proof/Certificates/Slice0/Obligations.lean ====
section
/-! DEFINITION. Certificates/Slice0/Obligations.lean: the statements for the provers. -/

open Sys2Proof Sys2Proof.Machine

/-! ### Encoding -/

/-- 30_encoding.md R103, R104: where the fields of a word lie in each layout, how they are packed, and that
packing and field extraction are inverse. -/
def Obligations.PackInvertsFieldExtraction : Prop :=
  (∀ w : Word,
    opcField .lsbFirst w = w.extractLsb 5 0 ∧ modeField .lsbFirst w = w.extractLsb 7 6 ∧
    opndField .lsbFirst w = w.extractLsb 31 8 ∧ opcField .msbFirst w = w.extractLsb 31 26 ∧
    modeField .msbFirst w = w.extractLsb 25 24 ∧ opndField .msbFirst w = w.extractLsb 23 0) ∧
  (∀ (o : BitVec 6) (m : BitVec 2) (x : Operand),
    pack .lsbFirst o m x = x ++ m ++ o ∧ pack .msbFirst o m x = o ++ m ++ x) ∧
  (∀ (l : Layout) (w : Word), pack l (opcField l w) (modeField l w) (opndField l w) = w) ∧
    ∀ (l : Layout) (o : BitVec 6) (m : BitVec 2) (x : Operand),
      opcField l (pack l o m x) = o ∧ modeField l (pack l o m x) = m ∧ opndField l (pack l o m x) = x

/-- Decode and encode agree: every well-formed instruction, with every operand, in either layout. -/
def Obligations.DecodeOfEncodeIsTheInstruction : Prop :=
  ∀ (l : Layout) (i : Instr), i.wellFormed = true → decode l (encode l i) = .ok i

/-- R108, R109: which words are UnknownInstruction and which are InvalidInstruction, by the numbers of
their fields; an Ok verdict is a well-formed instruction with the word's opcode and, but for the class
NONE, the word's mode and operand. -/
def Obligations.DecoderVerdictsByFieldNumbers : Prop :=
  ∀ (l : Layout) (w : Word),
    (decode l w = .unknownInstruction ↔ 19 ≤ (opcField l w).toNat) ∧
    (decode l w = .invalidInstruction ↔
      ((opcField l w).toNat ∈ [1, 2] ∧ (modeField l w).toNat = 3) ∨
      ((opcField l w).toNat ∈ [3, 4] ∧ (modeField l w).toNat ∈ [0, 3]) ∨
      ((opcField l w).toNat ∈ [13, 14, 15, 16, 17, 18] ∧ (modeField l w).toNat ∈ [0, 2, 3])) ∧
    ∀ i, decode l w = .ok i → i.wellFormed = true ∧ i.opcode.number = opcField l w ∧
      (i.opcode.cls ≠ .none → i.mode.bits = modeField l w ∧ i.operand = opndField l w)

/-- R127: a text that ENCODE accepts as the triple (op, form, N) decodes to it, N modulo 2^24, and the
canonical text denotes the same triple. -/
def Obligations.AcceptedTextRoundTrips : Prop :=
  ∀ (l : Layout) (t : Text) (op : Opcode) (f : Form), parseText t = .ok op f →
    ∃ w x, encodeText l t = .ok w ∧
      (match f with
        | .bare => x = noOperand
        | .imm n => (x.toNat : Int) = n % 2 ^ 24
        | .dir n => x.toNat = n % 2 ^ 24
        | .ind n => x.toNat = n % 2 ^ 24) ∧
      decode l w = .ok (Instr.build op (formMode f) x) ∧
      parseText (canonicalText (Instr.build op (formMode f) x)) = .ok op f

/-- R128: a canonical word re-encodes to itself through its canonical text; a NONE-class word that is not
canonical re-encodes to its canonical word, which decodes and executes the same. -/
def Obligations.CanonicalTextReencodesTheWord : Prop :=
  ∀ (l : Layout) (w : Word) (i : Instr), decode l w = .ok i →
    if i.opcode.cls = .none ∧ (modeField l w ≠ 0#2 ∨ opndField l w ≠ 0xFFFFFF#24) then
      ∃ w', encodeText l (canonicalText i) = .ok w' ∧ w' = pack l (opcField l w) 0#2 0xFFFFFF#24 ∧
        decode l w' = .ok i ∧
        ∀ (s : State) (commit : Bool), s.params.layout = l →
          execute w' commit s = execute w commit s
    else encodeText l (canonicalText i) = .ok w

/-- A sanity statement on words written out from the spec (95_test_vectors.md 2.1 and 2.2). -/
def Obligations.WordsOfTheSpecDecode : Prop :=
  decode .lsbFirst 0x00000501#32 = .ok (.lda .imm 5#24) ∧
  decode .lsbFirst 0x00006481#32 = .ok (.lda .ind 100#24) ∧
  decode .lsbFirst 0x00006443#32 = .ok (.sta .dir 100#24) ∧
  decode .lsbFirst 0xFFFFFF08#32 = .ok .div ∧
  decode .lsbFirst 0xFFFFFF0A#32 = .ok .inp ∧
  decode .lsbFirst 0x0000054D#32 = .ok (.jsb 5#24) ∧
  decode .msbFirst 0x35000005#32 = .ok (.jsb 5#24) ∧
  decode .lsbFirst 0xFFFFFF0C#32 = .ok .hlt

/-! ### Memory and the change tracker -/

/-- 20_memory.md R64: MemWrite fails exactly when one of its two checks does, and otherwise stores the
cell and, unless suppressed, notifies the change tracker. -/
def Obligations.MemWriteChecksThenStores : Prop :=
  ∀ (s : State) (ea : Addr) (v : Word) (suppress : Bool),
    (memWrite s ea v suppress = none ↔
      (¬initialized s ea.toNat ∧ s.params.cellCapacity = some s.mem.length) ∨
      (suppress = false ∧ s.traceEn = true ∧ ea.toNat ∉ s.traceSet ∧
        s.params.traceCapacity = some s.traceSet.length)) ∧
    ∀ t, memWrite s ea v suppress = some t → t = afterWrite s ea v suppress

/-- R62, R64: a read after a write gives the value written; every other cell, and whether every other
address is initialized, stays. -/
def Obligations.ReadAfterWrite : Prop :=
  ∀ (s t : State) (ea : Addr) (v : Word) (suppress : Bool), memWrite s ea v suppress = some t →
    memRead t ea = v ∧ initialized t ea.toNat ∧
    ∀ k : Addr, k ≠ ea → memRead t k = memRead s k ∧ (initialized t k.toNat ↔ initialized s k.toNat)

/-- R65: overwriting an initialized address fails only for want of a trace entry. -/
def Obligations.OverwriteNeedsNoNewCell : Prop :=
  ∀ (s : State) (ea : Addr) (v : Word) (suppress : Bool), initialized s ea.toNat →
    (memWrite s ea v suppress = none ↔
      suppress = false ∧ s.traceEn = true ∧ ea.toNat ∉ s.traceSet ∧
        s.params.traceCapacity = some s.traceSet.length)

/-- R66: an observed write sets the last-write slot and, while tracing is on, adds its address to the
trace set, in which duplicates collapse. -/
def Obligations.ObservedWriteIsTracked : Prop :=
  ∀ (s t : State) (ea : Addr) (v : Word), memWrite s ea v false = some t →
    t.lwAddr = ea ∧ t.lwDirty = true ∧
    (∀ k, k ∈ t.traceSet ↔ (s.traceEn = true ∧ k = ea.toNat) ∨ k ∈ s.traceSet) ∧
    (Consistent s → ea.toNat ∈ s.traceSet → t.traceSet = s.traceSet)

/-- R61: no step removes an address from the domain of M, but for a RESET. -/
def Obligations.InitializedAddressesStay : Prop :=
  ∀ (s t : State) (k : Nat), step s = .next t →
    (∀ image rest, s.port ≠ .reset image :: rest) → initialized s k → initialized t k

/-! ### Loads and stores -/

/-- 41_load_store.md R180: LDA in its three forms. -/
def Obligations.LdaLoadsItsOperand : Prop :=
  encodesModes 1#6 [.imm, .dir, .ind] .lda ∧
  ∀ (x : Operand) (s : State),
    exec (.lda .imm x) s = .next (afterLoadA s (x.signExtend 32)) ∧
    exec (.lda .dir x) s = .next (afterLoadA s (memRead s (x.setWidth 32))) ∧
    exec (.lda .ind x) s =
      .next (afterLoadA s (memRead s (toAddr s.params (memRead s (x.setWidth 32)))))

/-- R181: LDB in its three forms; no flag changes. -/
def Obligations.LdbLoadsItsOperandAndNoFlags : Prop :=
  encodesModes 2#6 [.imm, .dir, .ind] .ldb ∧
  ∀ (x : Operand) (s : State),
    exec (.ldb .imm x) s =
      .next { s with b := x.signExtend 32, pc := nextPc s, response := answered .ok } ∧
    exec (.ldb .dir x) s =
      .next { s with b := memRead s (x.setWidth 32), pc := nextPc s, response := answered .ok } ∧
    exec (.ldb .ind x) s =
      .next { s with b := memRead s (toAddr s.params (memRead s (x.setWidth 32))), pc := nextPc s,
                     response := answered .ok }

/-- R182: STA in its two forms, committed whole when the write fits and OutOfMemory with nothing changed
when not. -/
def Obligations.StaStoresA : Prop :=
  encodesModes 3#6 [.dir, .ind] .sta ∧
  ∀ (m : Mode) (x : Operand) (s : State) (ea : Addr),
    (m = .dir ∧ ea = x.setWidth 32 ∨ m = .ind ∧ ea = toAddr s.params (memRead s (x.setWidth 32))) →
    (writeFits s ea false → exec (.sta m x) s =
      .next { afterWrite s ea s.a false with pc := nextPc s, response := answered .ok }) ∧
    (¬writeFits s ea false → exec (.sta m x) s = .next { s with response := answered .outOfMemory })

/-- R183: STB in its two forms. -/
def Obligations.StbStoresB : Prop :=
  encodesModes 4#6 [.dir, .ind] .stb ∧
  ∀ (m : Mode) (x : Operand) (s : State) (ea : Addr),
    (m = .dir ∧ ea = x.setWidth 32 ∨ m = .ind ∧ ea = toAddr s.params (memRead s (x.setWidth 32))) →
    (writeFits s ea false → exec (.stb m x) s =
      .next { afterWrite s ea s.b false with pc := nextPc s, response := answered .ok }) ∧
    (¬writeFits s ea false → exec (.stb m x) s = .next { s with response := answered .outOfMemory })

/-- The frame of STA and STB, by the address the meaning stores to: that cell holds the register, every
other address reads as before, and nothing else changes but PC, the change tracker and the
response. -/
def Obligations.StoresChangeOneCell : Prop :=
  ∀ (m : Mode) (x : Operand) (s t : State) (i : Instr),
    (i = .sta m x ∨ i = .stb m x) → exec i s = .next t →
    (∀ ea, storeAddr s m x = some ea → ∀ k : Addr, k ≠ ea → memRead t k = memRead s k) ∧
    (∀ ea, storeAddr s m x = some ea → t.response = answered .ok →
      memRead t ea = if i = .sta m x then s.a else s.b) ∧
    (t.response ≠ answered .ok → t = { s with response := t.response }) ∧
    t = { s with mem := t.mem, lwAddr := t.lwAddr, lwDirty := t.lwDirty, traceSet := t.traceSet,
                 pc := t.pc, response := t.response }

/-- 20_memory.md R77: a store is seen by the next fetch of its address. -/
def Obligations.NextFetchSeesTheStore : Prop :=
  ∀ (m : Mode) (x : Operand) (s t : State) (ea : Addr), storeAddr s m x = some ea →
    exec (.sta m x) s = .next t → t.response = answered .ok → t.pc = ea → fetch t = s.a

/-! ### Arithmetic -/

/-- 42_arithmetic.md R206. -/
def Obligations.AddResultAndFlags : Prop :=
  encodesBare 5#6 .add ∧
  ∀ (s : State) (r : Word), r = BitVec.ofInt 32 (s.a.toInt + s.b.toInt) →
    exec .add s =
      .next (afterArith s r (mismatch s.params.shadowFp .add s.a.toInt s.b.toInt r))

/-- R207. -/
def Obligations.SubResultAndFlags : Prop :=
  encodesBare 6#6 .sub ∧
  ∀ (s : State) (r : Word), r = BitVec.ofInt 32 (s.a.toInt - s.b.toInt) →
    exec .sub s =
      .next (afterArith s r (mismatch s.params.shadowFp .sub s.a.toInt s.b.toInt r))

/-- R208. -/
def Obligations.MulResultAndFlags : Prop :=
  encodesBare 7#6 .mul ∧
  ∀ (s : State) (r : Word), r = BitVec.ofInt 32 (s.a.toInt * s.b.toInt) →
    exec .mul s =
      .next (afterArith s r (mismatch s.params.shadowFp .mul s.a.toInt s.b.toInt r))

/-- R209, R210: DivideByZero with nothing changed, the truncated quotient, and the model fault at
-2^31 / -1 under DIV_OVF = UNDEFINED. -/
def Obligations.DivResultFlagsAndErrors : Prop :=
  encodesBare 8#6 .div ∧
  ∀ (s : State) (r : Word), r = BitVec.ofInt 32 (s.a.toInt.tdiv s.b.toInt) →
    (s.b.toInt = 0 → exec .div s = .next { s with response := answered .divideByZero }) ∧
    (s.a.toInt = -2 ^ 31 → s.b.toInt = -1 → s.params.divOvf = .undefined →
      exec .div s = .fault .divOverflowUndefined) ∧
    (s.b.toInt ≠ 0 → (s.a.toInt ≠ -2 ^ 31 ∨ s.b.toInt ≠ -1 ∨ s.params.divOvf = .wrap) →
      exec .div s =
        .next (afterArith s r (mismatch s.params.shadowFp .div s.a.toInt s.b.toInt r)))

/-- R202: under BINARY64 the detector finds exactly the true signed overflow of a sum, a difference and a
product. -/
def Obligations.ShadowFindsSignedOverflow : Prop :=
  ∀ (op : AluOp) (a b : Word), op ≠ .div →
    (mismatch .binary64 op a.toInt b.toInt (aluInt op a.toInt b.toInt) = true ↔
      ¬(-2 ^ 31 ≤ aluExact op a.toInt b.toInt ∧ aluExact op a.toInt b.toInt ≤ 2 ^ 31 - 1))

/-- R203: under BINARY64 the detector finds exactly the inexact quotients and -2^31 / -1. -/
def Obligations.ShadowFindsInexactQuotient : Prop :=
  ∀ (a b : Word), b.toInt ≠ 0 →
    (mismatch .binary64 .div a.toInt b.toInt (aluInt .div a.toInt b.toInt) = true ↔
      (a.toInt % b.toInt ≠ 0 ∨ (a.toInt = -2 ^ 31 ∧ b.toInt = -1)))

/-- R204: under BINARY32 the detector is rounded to single precision and finds a mismatch with no integer
overflow; BINARY64 finds none there. -/
def Obligations.SinglePrecisionShadowLosesBits : Prop :=
  mismatch .binary32 .add 16777217 1 (aluInt .add 16777217 1) = true ∧
  mismatch .binary64 .add 16777217 1 (aluInt .add 16777217 1) = false ∧
  aluInt .add 16777217 1 = 16777218#32

/-! ### Input and output -/

/-- 43_io.md R220: INP takes the next value of IN, whatever it is. -/
def Obligations.InpTakesTheNextValue : Prop :=
  encodesBare 10#6 .inp ∧
  ∀ (s : State) (v : Word) (rest : List Word), s.input = v :: rest →
    exec .inp s = .next { afterLoadA s v with input := rest }

/-- R222: with no value in IN, INP waits: the step does not complete, nothing changes, and the same STEP
completes once a value is supplied. A STEP of INP that an empty port runs stands at the head of the port
while it waits, as an issued one does: commands the host issues meanwhile stay behind it, and they are
what is left on the port once it has returned (10_state.md R41, 70_reset_and_hazards.md R331). The self-loop with no response is
the model's form of the wait (log 5 [DESIGN CHOICE]), the port and the STEP of an empty port are the model's
(log 3 [DESIGN CHOICE]). -/
def Obligations.InpWaitsForAValue : Prop :=
  ∀ (s : State), s.input = [] →
    exec .inp s = .next { s with response := none } ∧
    (∀ (v : Word) (vs : List Word),
      exec .inp (({ s with response := none } : State).supply (v :: vs)) =
        .next { afterLoadA s v with input := vs }) ∧
    ∀ (w : State), w = { s with port := [.step], response := none } →
      s.port = [] ∨ s.port = [.step] → decode s.params.layout (memRead s s.pc) = .ok .inp →
        step s = .next w ∧
        ∀ (cs : List Command), step (w.issue cs) = .next (w.issue cs) ∧
          ∀ (v : Word) (vs : List Word), step ((w.issue cs).supply (v :: vs)) =
            .next { afterLoadA s v with
              input := vs, port := cs
              response := answered (if (nextPc s).toNat ∈ s.bp then .breakpoint else .ok) }

/-- R221: OUT appends A to OUT_LOG. -/
def Obligations.OutAppendsA : Prop :=
  encodesBare 11#6 .out ∧
  ∀ (s : State), exec .out s =
    .next { s with outLog := s.outLog ++ [s.a], pc := nextPc s, response := answered .ok }

/-! ### Control transfer, NOP and HLT -/

/-- 45_nop_halt.md R250. -/
def Obligations.NopOnlyAdvances : Prop :=
  encodesBare 0#6 .nop ∧
  ∀ (s : State), exec .nop s = .next { s with pc := nextPc s, response := answered .ok }

/-- R251: HLT returns EndOfProgram and changes nothing. -/
def Obligations.HltEndsTheProgram : Prop :=
  encodesBare 12#6 .hlt ∧
  ∀ (s : State), exec .hlt s = .next { s with response := answered .endOfProgram }

/-- 44_control_transfer.md R230. -/
def Obligations.JmpGoesToItsOperand : Prop :=
  encodesModes 14#6 [.dir] (fun _ x => .jmp x) ∧
  ∀ (x : Operand) (s : State),
    exec (.jmp x) s = .next { s with pc := x.setWidth 32, response := answered .ok }

/-- R231, R232, R233, R234: the conditional jumps go to their operand when their flags hold and to the
next cell when not. -/
def Obligations.ConditionalJumpsReadTheirFlags : Prop :=
  encodesModes 15#6 [.dir] (fun _ x => .jsp x) ∧ encodesModes 16#6 [.dir] (fun _ x => .jsn x) ∧
  encodesModes 17#6 [.dir] (fun _ x => .jiz x) ∧ encodesModes 18#6 [.dir] (fun _ x => .jof x) ∧
  ∀ (x : Operand) (s : State),
    exec (.jsp x) s = .next { s with
      pc := if s.z = false ∧ s.n = false then x.setWidth 32 else nextPc s, response := answered .ok } ∧
    exec (.jsn x) s = .next { s with
      pc := if s.n = true then x.setWidth 32 else nextPc s, response := answered .ok } ∧
    exec (.jiz x) s = .next { s with
      pc := if s.z = true then x.setWidth 32 else nextPc s, response := answered .ok } ∧
    exec (.jof x) s = .next { s with
      pc := if s.o = true then x.setWidth 32 else nextPc s, response := answered .ok }

/-- R235: JSB pushes the return address at SP, decrements SP and jumps; the push bypasses the change
tracker while STACK_TRACE is 0; a failing push changes nothing. -/
def Obligations.JsbPushesTheReturnAddress : Prop :=
  encodesModes 13#6 [.dir] (fun _ x => .jsb x) ∧
  ∀ (x : Operand) (s : State),
    (writeFits s s.sp (!s.stackTrace) → exec (.jsb x) s =
      .next { afterWrite s s.sp (nextPc s) (!s.stackTrace) with
        sp := toAddr s.params (s.sp - 1#32), pc := x.setWidth 32, response := answered .ok }) ∧
    (¬writeFits s s.sp (!s.stackTrace) →
      exec (.jsb x) s = .next { s with response := answered .outOfMemory })

/-- R236: RTS increments SP and then reads the return address there, as an Address. -/
def Obligations.RtsPopsTheReturnAddress : Prop :=
  encodesBare 9#6 .rts ∧
  ∀ (s : State) (top : Addr), top = toAddr s.params (s.sp + 1#32) →
    exec .rts s = .next { s with
      sp := top, pc := toAddr s.params (memRead s top), response := answered .ok }

/-- The frame of JSB, by the address the meaning stores to: the cell at SP holds the return address and
every other address reads as before. -/
def Obligations.JsbChangesOneCell : Prop :=
  ∀ (x : Operand) (s t : State), exec (.jsb x) s = .next t →
    (∀ k : Addr, k ≠ s.sp → memRead t k = memRead s k) ∧
    (t.response = answered .ok → memRead t s.sp = returnAddr s) ∧
    (s.stackTrace = false →
      t.lwAddr = s.lwAddr ∧ t.lwDirty = s.lwDirty ∧ t.traceSet = s.traceSet) ∧
    t = { s with mem := t.mem, lwAddr := t.lwAddr, lwDirty := t.lwDirty, traceSet := t.traceSet,
                 sp := t.sp, pc := t.pc, response := t.response }

/-- R237: an RTS after a JSB, with SP and the pushed cell left alone, returns to the address after the
JSB and restores SP. -/
def Obligations.JsbThenRtsReturns : Prop :=
  ∀ (x : Operand) (s t u : State), s.sp.toNat < 2 ^ s.params.addrW → exec (.jsb x) s = .next t →
    t.response = answered .ok → u.params = t.params → u.sp = t.sp →
    memRead u s.sp = memRead t s.sp →
    exec .rts u = .next { u with sp := s.sp, pc := nextPc s, response := answered .ok }

/-! ### Frames and views over all instructions -/

/-- 10_state.md R23, R27: an instruction that answers a next state writes only what its row names. -/
def Obligations.InstructionsWriteOnlyTheirRow : Prop :=
  ∀ (i : Instr) (s t : State), exec i s = .next t →
    (t.a ≠ s.a → i.opcode ∈ [.lda, .add, .sub, .mul, .div, .inp]) ∧
    (t.b ≠ s.b → i.opcode = .ldb) ∧
    (t.z ≠ s.z ∨ t.n ≠ s.n ∨ t.o ≠ s.o → i.opcode ∈ [.lda, .add, .sub, .mul, .div, .inp]) ∧
    (t.sp ≠ s.sp → i.opcode ∈ [.rts, .jsb]) ∧
    (t.pc ≠ s.pc → i.opcode ≠ .hlt) ∧
    (t.mem ≠ s.mem → i.opcode ∈ [.sta, .stb, .jsb]) ∧
    (t.lwAddr ≠ s.lwAddr ∨ t.lwDirty ≠ s.lwDirty ∨ t.traceSet ≠ s.traceSet →
      i.opcode ∈ [.sta, .stb, .jsb]) ∧
    (t.outLog ≠ s.outLog → i.opcode = .out) ∧
    (t.input ≠ s.input → i.opcode = .inp) ∧
    t.params = s.params ∧ t.bp = s.bp ∧ t.traceEn = s.traceEn ∧ t.stackTrace = s.stackTrace ∧
    t.port = s.port

/-- The memory frame of the sixteen instructions that store nothing: every address reads as before, and
the same addresses are initialized. -/
def Obligations.OtherInstructionsLeaveMemory : Prop :=
  ∀ (i : Instr) (s t : State), i.opcode ∉ [.sta, .stb, .jsb] → exec i s = .next t →
    (∀ k : Addr, memRead t k = memRead s k) ∧ ∀ k, initialized t k ↔ initialized s k

/-- 46_debug_services.md R273: a program cannot observe any debug state. States that agree on what a
program can see go to states that agree on it, with the same response. The trace set is taken as
unbounded: under a finite TRACE_CAPACITY a write can return OutOfMemory because of it (R64). -/
def Obligations.ProgramsCannotObserveDebugState : Prop :=
  ∀ (i : Instr) (s t : State), sameProgramView s t → s.params.traceCapacity = none →
    (∀ s', exec i s = .next s' →
      ∃ t', exec i t = .next t' ∧ sameProgramView s' t' ∧ s'.response = t'.response) ∧
    (∀ r, exec i s = .fault r → exec i t = .fault r)

/-- An instruction term that no word decodes to, a load in the indexed mode or a store in the immediate
or indexed mode, answers InvalidInstruction and changes nothing (the model's choice, log 13 [DESIGN CHOICE]). -/
def Obligations.IllFormedTermsAreInvalid : Prop :=
  ∀ (i : Instr) (s : State), i.wellFormed = false →
    exec i s = .next { s with response := answered .invalidInstruction }

/-! ### The engine -/

/-- A step runs the decoded instruction: with nothing queued on the port (the model's own field, log 3 [DESIGN CHOICE]),
step is exec of the instruction decoded at PC, and then the breakpoint check (40_execution_engine.md R141, R151,
R152). While an INP waits, the STEP that the empty port runs is put on the port. -/
def Obligations.StepRunsTheDecodedInstruction : Prop :=
  ∀ (s : State) (i : Instr), s.port = [] →
    decode s.params.layout (memRead s s.pc) = .ok i →
    (∀ t, exec i s = .next t →
      (t.response = answered .ok → t.pc.toNat ∈ t.bp →
        step s = .next { t with response := answered .breakpoint }) ∧
      (t.response.isSome = true → (t.response ≠ answered .ok ∨ t.pc.toNat ∉ t.bp) → step s = .next t) ∧
      (t.response = none → step s = .next { t with port := [.step] })) ∧
    (∀ r, exec i s = .fault r → step s = .fault r)

/-- A fetched or supplied word that does not decode ends the command with its status and nothing else
changed (R143). That a step with nothing on the port is a STEP is the model's choice (log 3 [DESIGN CHOICE]). -/
def Obligations.UndecodableWordChangesNothing : Prop :=
  ∀ (s : State) (w : Word) (commit : Bool),
    (decode s.params.layout w = .unknownInstruction →
      execute w commit s = .next { s with response := answered .unknownInstruction } ∧
      (s.port = [] → w = memRead s s.pc →
        step s = .next { s with response := answered .unknownInstruction })) ∧
    (decode s.params.layout w = .invalidInstruction →
      execute w commit s = .next { s with response := answered .invalidInstruction } ∧
      (s.port = [] → w = memRead s s.pc →
        step s = .next { s with response := answered .invalidInstruction }))

/-- R156, R301: a step that ends with EndOfProgram or an error changed nothing, and a second step returns
the same status. That a step with nothing on the port is a STEP is the model's choice (log 3 [DESIGN CHOICE]). -/
def Obligations.FailingStepChangesNothingAndRepeats : Prop :=
  ∀ (s t : State) (st : Status), s.port = [] → step s = .next t → t.response = answered st →
    st ≠ .ok → st ≠ .breakpoint → t = { s with response := answered st } ∧ step t = .next t

/-- The response is an output only: no step reads it. In particular no halt is stored (R251, 10_state.md R37). -/
def Obligations.NoStepReadsTheResponse : Prop :=
  ∀ (s : State) (r : Option Response), step { s with response := r } = step s

/-- RUN repeats STEP until a status other than OK (R153). After n steps that return OK, RUN has not
returned; one more that returns anything else is RUN's answer. That each STEP of a RUN is a step of the
machine, the RUN staying on the port meanwhile, is the model's choice (log 4 [DESIGN CHOICE]). -/
def Obligations.RunRepeatsStep : Prop :=
  ∀ (n : Nat) (s t : State) (rest : List Command), OkSteps n s t →
    (∀ u, stepCommand t = .next u → u.response.isSome = true → u.response ≠ answered .ok →
      Sys2Proof.core.run (n + 1) ({ s with port := .run :: rest } : State) =
        .next ({ u with port := rest } : State)) ∧
    (0 < n → Sys2Proof.core.run n ({ s with port := .run :: rest } : State) =
      .next ({ t with port := .run :: rest, response := none } : State))

/-- R302: after DivideByZero the host can EXEC `ldb #1` and STEP again, and the DIV completes. -/
def Obligations.DivideByZeroIsRecoverable : Prop :=
  ∀ (s : State), decode s.params.layout (memRead s s.pc) = .ok .div → s.b = 0#32 → s.bp = [] →
    s.port = [.step, .exec ['l', 'd', 'b', ' ', '#', '1'], .step] →
    ∃ t, Sys2Proof.core.run 3 s = .next t ∧ t.response = answered .ok ∧ t.a = s.a ∧ t.b = 1#32 ∧
      t.pc = nextPc s ∧ t.port = []

/-- The block stops with a fault only where the spec says the model does, and refuses nothing: DIV of
-2^31 by -1 under DIV_OVF = UNDEFINED (R210), and a RESET whose image is over CELL_CAPACITY, which
is the model's choice (log 9 [DESIGN CHOICE]). That a step whose INP waits answers a next state is the model's
choice too (log 5 [DESIGN CHOICE]): 43_io.md R222 calls the wait stuck, and 93_implementation_defined.md reads stuck as
no next state. So are a RUN's answering one at every turn (log 4 [DESIGN CHOICE]) and an empty port's running a
STEP (log 3 [DESIGN CHOICE]). -/
def Obligations.StepStopsOnlyWhereSaid : Prop :=
  ∀ (s : State), s.params.divOvf = .wrap →
    (∀ image rest, s.port = .reset image :: rest →
      overCapacity s.params (storeOfImage s.params image) = false) →
    goesOn (step s)

/-! ### Invariants -/

/-- The reset state is consistent and its change tracker is sound. -/
def Obligations.ResetIsConsistent : Prop :=
  Consistent State.reset ∧ TrackerSound State.reset

/-- Every step keeps the store, the sets, PC, SP, the flags and the capacities consistent. -/
def Obligations.StepKeepsConsistent : Prop :=
  ∀ (s t : State), Consistent s → step s = .next t → Consistent t

/-- Every step keeps the change tracker sound: what it reports is initialized. -/
def Obligations.StepKeepsTrackerSound : Prop :=
  ∀ (s t : State), TrackerSound s → step s = .next t → TrackerSound t

/-- The parameters are configuration: no step changes them (10_state.md R37). -/
def Obligations.ParametersNeverChange : Prop :=
  ∀ (s t : State), step s = .next t → t.params = s.params

/-! ### The command port

The queue `port`, whose head is the command the block runs, is the model's form of the port of 10_state.md
R39 (log 3 [DESIGN CHOICE]). -/

/-- 70_reset_and_hazards.md R320, R322: RESET gives every piece of state its value of R42, and M the
image. That PC_INIT and SP_INIT are reduced modulo 2^ADDR_W is the model's choice (log 8 [DESIGN CHOICE]), and
that IN and the parameters stay is its inference (log 15 [DEDUCED]). That LW_ADDR becomes 0 is the model's
choice (log 7 [DESIGN CHOICE]) and is not stated. -/
def Obligations.ResetLoadsTheImage : Prop :=
  ∀ (s : State) (image : List (Addr × Word)) (rest : List Command), s.port = .reset image :: rest →
    (∀ c ∈ image, c.1.toNat < 2 ^ s.params.addrW) → (image.map Prod.fst).Nodup →
    withinCapacity image.length s.params.cellCapacity →
    ∃ t, step s = .next t ∧
      (∀ c ∈ image, storeGet t.mem c.1.toNat = some c.2) ∧
      (∀ k, k ∉ image.map (fun c => c.1.toNat) → ¬initialized t k) ∧
      t = { s with
        a := 0#32, b := 0#32, z := false, n := false, o := false
        pc := toAddr s.params s.params.pcInit, sp := toAddr s.params s.params.spInit
        mem := t.mem, bp := [], lwAddr := t.lwAddr, lwDirty := false, traceSet := []
        traceEn := false, stackTrace := false, outLog := [], port := rest
        response := answered .ok }

/-- 46_debug_services.md R260, R261: BP_SET adds an address, a second time to no effect; BP_DEL removes
it, or answers NotFound. -/
def Obligations.BreakpointSetAndDelete : Prop :=
  ∀ (s : State) (a : Addr) (rest : List Command), a.toNat < 2 ^ s.params.addrW →
    (s.port = .bpSet a :: rest → ∃ t, step s = .next t ∧
      t = { s with bp := t.bp, port := rest, response := answered .ok } ∧
      (∀ k, k ∈ t.bp ↔ k = a.toNat ∨ k ∈ s.bp) ∧
      (Consistent s → a.toNat ∈ s.bp → t.bp = s.bp)) ∧
    (s.port = .bpDel a :: rest → a.toNat ∈ s.bp → ∃ t, step s = .next t ∧
      t = { s with bp := t.bp, port := rest, response := answered .ok } ∧
      ∀ k, k ∈ t.bp ↔ k ∈ s.bp ∧ k ≠ a.toNat) ∧
    (s.port = .bpDel a :: rest → a.toNat ∉ s.bp →
      step s = .next { s with port := rest, response := answered .notFound })

/-- R262, R265, R266, R269: the queries return their values and change nothing; SP_SET sets SP. -/
def Obligations.QueriesAndStackPointerAccess : Prop :=
  ∀ (s : State) (rest : List Command),
    (s.port = .bpList :: rest → Consistent s → s.bp.Pairwise (fun x y => x < y) ∧
      step s = .next { s with
        port := rest, response := some { status := .ok, result := .addresses s.bp } }) ∧
    (s.port = .spGet :: rest → step s = .next { s with
      port := rest, response := some { status := .ok, result := .address s.sp } }) ∧
    (∀ a, a.toNat < 2 ^ s.params.addrW → s.port = .spSet a :: rest → step s = .next { s with
      sp := a, port := rest, response := answered .ok }) ∧
    (s.port = .status :: rest → step s = .next { s with
      port := rest
      response := some { status := .ok, result := .registers s.a s.b s.z s.n s.o s.pc } })

/-- R267, R268: the two toggles; clearing TRACE_EN does not empty TRACE_SET. -/
def Obligations.TracingToggles : Prop :=
  ∀ (s : State) (b : Bool) (rest : List Command),
    (s.port = .stackTraceSet b :: rest → step s = .next { s with
      stackTrace := b, port := rest, response := answered .ok }) ∧
    (s.port = .traceSet b :: rest → step s = .next { s with
      traceEn := b, port := rest, response := answered .ok })

/-- R263: PATCH assembles, writes through the change tracker and reports the change; an encode error or a
failing write writes nothing. -/
def Obligations.PatchWritesOneInstruction : Prop :=
  ∀ (s : State) (a : Addr) (text : Text) (rest : List Command), a.toNat < 2 ^ s.params.addrW →
    s.port = .patch a text :: rest →
    match encodeText s.params.layout text with
    | .unknownInstruction =>
      step s = .next { s with port := rest, response := answered .unknownInstruction }
    | .invalidInstruction =>
      step s = .next { s with port := rest, response := answered .invalidInstruction }
    | .ok w =>
      (writeFits s a false → step s = .next { afterWrite s a w false with
        port := rest, response := some { status := .ok, result := .change a w } }) ∧
      (¬writeFits s a false →
        step s = .next { s with port := rest, response := answered .outOfMemory })

/-- R264, R150: EXEC runs one assembled instruction; only PC returns to its old value, every other effect
remains, and no breakpoint is checked. -/
def Obligations.ExecRestoresOnlyPc : Prop :=
  ∀ (s : State) (text : Text) (rest : List Command), s.port = .exec text :: rest →
    match encodeText s.params.layout text with
    | .unknownInstruction =>
      step s = .next { s with port := rest, response := answered .unknownInstruction }
    | .invalidInstruction =>
      step s = .next { s with port := rest, response := answered .invalidInstruction }
    | .ok w => ∃ i, decode s.params.layout w = .ok i ∧
      ∀ t, exec i s = .next t → t.response.isSome = true →
        step s = .next { t with pc := s.pc, port := rest }

/-- 30_encoding.md R122, R123, R126: the commands ENCODE and DECODE answer for their argument alone and change
nothing else. -/
def Obligations.CodecCommandsAnswerForTheirArgument : Prop :=
  ∀ (s : State) (rest : List Command),
    (∀ text, s.port = .encode text :: rest →
      step s = .next { s with
        port := rest
        response := match encodeText s.params.layout text with
          | .ok w => some { status := .ok, result := .word w }
          | .unknownInstruction => answered .unknownInstruction
          | .invalidInstruction => answered .invalidInstruction }) ∧
    (∀ w, s.port = .decode w :: rest →
      step s = .next { s with
        port := rest
        response := match decode s.params.layout w with
          | .ok i => some { status := .ok, result := .text (canonicalText i) }
          | .unknownInstruction => answered .unknownInstruction
          | .invalidInstruction => answered .invalidInstruction })

/-- R270: CHANGE_QUERY reports the last observed write with its current value once, and answers
InvalidState when there is none. -/
def Obligations.ChangeQueryReportsOnce : Prop :=
  ∀ (s : State) (rest : List Command), s.port = .changeQuery :: rest →
    (s.lwDirty = true → step s = .next { s with
      lwDirty := false, port := rest
      response := some { status := .ok, result := .change s.lwAddr (memRead s s.lwAddr) } }) ∧
    (s.lwDirty = false → step s = .next { s with port := rest, response := answered .invalidState })

/-- R271: TRACE_DRAIN reports every traced address once, strictly ascending, each with its value at drain
time, and empties the trace set. -/
def Obligations.TraceDrainIsAscendingAndCurrent : Prop :=
  ∀ (s : State) (rest : List Command), s.port = .traceDrain :: rest → Consistent s →
    ∃ reports, step s = .next { s with
        traceSet := [], port := rest
        response := some { status := .ok, result := .changes reports } } ∧
      reports.map Prod.fst = s.traceSet ∧
      reports.Pairwise (fun x y => x.1 < y.1) ∧
      ∀ c ∈ reports, c.2 = (storeGet s.mem c.1).getD s.params.uninit

/-- R325, R326: the i-th source line's cell stands at LOAD_BASE + i, and is the canonical NOP where ENCODE
rejects the line. That LOAD_BASE + i wraps modulo 2^ADDR_W is the model's choice (log 16 [DESIGN CHOICE]). -/
def Obligations.ImagePlacesEachLine : Prop :=
  ∀ (p : Params) (lines : List Text) (i : Nat) (line : Text), lines[i]? = some line →
    (programImage p lines)[i]? = some (toAddr p (p.loadBase + BitVec.ofNat 32 i),
      match encodeText p.layout line with
      | .ok w => w
      | _ => pack p.layout 0#6 0#2 0xFFFFFF#24)
end

