-- ==== Sys2Proof/Laws/State.lean ====
section
/-! SUPPORT. Laws/State.lean: for every named update of State, each field after it. -/

namespace Sys2Proof.Machine

/-! ### State.advance -/

@[simp] theorem State.advance_params (s : State) : s.advance.params = s.params := rfl
@[simp] theorem State.advance_a (s : State) : s.advance.a = s.a := rfl
@[simp] theorem State.advance_b (s : State) : s.advance.b = s.b := rfl
@[simp] theorem State.advance_z (s : State) : s.advance.z = s.z := rfl
@[simp] theorem State.advance_n (s : State) : s.advance.n = s.n := rfl
@[simp] theorem State.advance_o (s : State) : s.advance.o = s.o := rfl
@[simp] theorem State.advance_pc (s : State) : s.advance.pc = toAddr s.params (s.pc + 1#32) := rfl
@[simp] theorem State.advance_sp (s : State) : s.advance.sp = s.sp := rfl
@[simp] theorem State.advance_mem (s : State) : s.advance.mem = s.mem := rfl
@[simp] theorem State.advance_bp (s : State) : s.advance.bp = s.bp := rfl
@[simp] theorem State.advance_lwAddr (s : State) : s.advance.lwAddr = s.lwAddr := rfl
@[simp] theorem State.advance_lwDirty (s : State) : s.advance.lwDirty = s.lwDirty := rfl
@[simp] theorem State.advance_traceSet (s : State) : s.advance.traceSet = s.traceSet := rfl
@[simp] theorem State.advance_traceEn (s : State) : s.advance.traceEn = s.traceEn := rfl
@[simp] theorem State.advance_stackTrace (s : State) : s.advance.stackTrace = s.stackTrace := rfl
@[simp] theorem State.advance_outLog (s : State) : s.advance.outLog = s.outLog := rfl
@[simp] theorem State.advance_input (s : State) : s.advance.input = s.input := rfl
@[simp] theorem State.advance_port (s : State) : s.advance.port = s.port := rfl
@[simp] theorem State.advance_response (s : State) : s.advance.response = s.response := rfl

/-! ### State.setZN -/

@[simp] theorem State.setZN_params (s : State) (v : Word) : (s.setZN v).params = s.params := rfl
@[simp] theorem State.setZN_a (s : State) (v : Word) : (s.setZN v).a = s.a := rfl
@[simp] theorem State.setZN_b (s : State) (v : Word) : (s.setZN v).b = s.b := rfl
@[simp] theorem State.setZN_z (s : State) (v : Word) : (s.setZN v).z = decide (v.toInt = 0) := rfl
@[simp] theorem State.setZN_n (s : State) (v : Word) : (s.setZN v).n = decide (v.toInt < 0) := rfl
@[simp] theorem State.setZN_o (s : State) (v : Word) : (s.setZN v).o = s.o := rfl
@[simp] theorem State.setZN_pc (s : State) (v : Word) : (s.setZN v).pc = s.pc := rfl
@[simp] theorem State.setZN_sp (s : State) (v : Word) : (s.setZN v).sp = s.sp := rfl
@[simp] theorem State.setZN_mem (s : State) (v : Word) : (s.setZN v).mem = s.mem := rfl
@[simp] theorem State.setZN_bp (s : State) (v : Word) : (s.setZN v).bp = s.bp := rfl
@[simp] theorem State.setZN_lwAddr (s : State) (v : Word) : (s.setZN v).lwAddr = s.lwAddr := rfl
@[simp] theorem State.setZN_lwDirty (s : State) (v : Word) : (s.setZN v).lwDirty = s.lwDirty := rfl
@[simp] theorem State.setZN_traceSet (s : State) (v : Word) : (s.setZN v).traceSet = s.traceSet := rfl
@[simp] theorem State.setZN_traceEn (s : State) (v : Word) : (s.setZN v).traceEn = s.traceEn := rfl
@[simp] theorem State.setZN_stackTrace (s : State) (v : Word) : (s.setZN v).stackTrace = s.stackTrace := rfl
@[simp] theorem State.setZN_outLog (s : State) (v : Word) : (s.setZN v).outLog = s.outLog := rfl
@[simp] theorem State.setZN_input (s : State) (v : Word) : (s.setZN v).input = s.input := rfl
@[simp] theorem State.setZN_port (s : State) (v : Word) : (s.setZN v).port = s.port := rfl
@[simp] theorem State.setZN_response (s : State) (v : Word) : (s.setZN v).response = s.response := rfl

/-! ### State.reply -/

@[simp] theorem State.reply_params (s : State) (st : Status) (r : Result) : (s.reply st r).params = s.params := rfl
@[simp] theorem State.reply_a (s : State) (st : Status) (r : Result) : (s.reply st r).a = s.a := rfl
@[simp] theorem State.reply_b (s : State) (st : Status) (r : Result) : (s.reply st r).b = s.b := rfl
@[simp] theorem State.reply_z (s : State) (st : Status) (r : Result) : (s.reply st r).z = s.z := rfl
@[simp] theorem State.reply_n (s : State) (st : Status) (r : Result) : (s.reply st r).n = s.n := rfl
@[simp] theorem State.reply_o (s : State) (st : Status) (r : Result) : (s.reply st r).o = s.o := rfl
@[simp] theorem State.reply_pc (s : State) (st : Status) (r : Result) : (s.reply st r).pc = s.pc := rfl
@[simp] theorem State.reply_sp (s : State) (st : Status) (r : Result) : (s.reply st r).sp = s.sp := rfl
@[simp] theorem State.reply_mem (s : State) (st : Status) (r : Result) : (s.reply st r).mem = s.mem := rfl
@[simp] theorem State.reply_bp (s : State) (st : Status) (r : Result) : (s.reply st r).bp = s.bp := rfl
@[simp] theorem State.reply_lwAddr (s : State) (st : Status) (r : Result) : (s.reply st r).lwAddr = s.lwAddr := rfl
@[simp] theorem State.reply_lwDirty (s : State) (st : Status) (r : Result) : (s.reply st r).lwDirty = s.lwDirty := rfl
@[simp] theorem State.reply_traceSet (s : State) (st : Status) (r : Result) : (s.reply st r).traceSet = s.traceSet := rfl
@[simp] theorem State.reply_traceEn (s : State) (st : Status) (r : Result) : (s.reply st r).traceEn = s.traceEn := rfl
@[simp] theorem State.reply_stackTrace (s : State) (st : Status) (r : Result) : (s.reply st r).stackTrace = s.stackTrace := rfl
@[simp] theorem State.reply_outLog (s : State) (st : Status) (r : Result) : (s.reply st r).outLog = s.outLog := rfl
@[simp] theorem State.reply_input (s : State) (st : Status) (r : Result) : (s.reply st r).input = s.input := rfl
@[simp] theorem State.reply_port (s : State) (st : Status) (r : Result) : (s.reply st r).port = s.port := rfl
@[simp] theorem State.reply_response (s : State) (st : Status) (r : Result) : (s.reply st r).response = some { status := st, result := r } := rfl

/-! ### State.pending -/

@[simp] theorem State.pending_params (s : State) : s.pending.params = s.params := rfl
@[simp] theorem State.pending_a (s : State) : s.pending.a = s.a := rfl
@[simp] theorem State.pending_b (s : State) : s.pending.b = s.b := rfl
@[simp] theorem State.pending_z (s : State) : s.pending.z = s.z := rfl
@[simp] theorem State.pending_n (s : State) : s.pending.n = s.n := rfl
@[simp] theorem State.pending_o (s : State) : s.pending.o = s.o := rfl
@[simp] theorem State.pending_pc (s : State) : s.pending.pc = s.pc := rfl
@[simp] theorem State.pending_sp (s : State) : s.pending.sp = s.sp := rfl
@[simp] theorem State.pending_mem (s : State) : s.pending.mem = s.mem := rfl
@[simp] theorem State.pending_bp (s : State) : s.pending.bp = s.bp := rfl
@[simp] theorem State.pending_lwAddr (s : State) : s.pending.lwAddr = s.lwAddr := rfl
@[simp] theorem State.pending_lwDirty (s : State) : s.pending.lwDirty = s.lwDirty := rfl
@[simp] theorem State.pending_traceSet (s : State) : s.pending.traceSet = s.traceSet := rfl
@[simp] theorem State.pending_traceEn (s : State) : s.pending.traceEn = s.traceEn := rfl
@[simp] theorem State.pending_stackTrace (s : State) : s.pending.stackTrace = s.stackTrace := rfl
@[simp] theorem State.pending_outLog (s : State) : s.pending.outLog = s.outLog := rfl
@[simp] theorem State.pending_input (s : State) : s.pending.input = s.input := rfl
@[simp] theorem State.pending_port (s : State) : s.pending.port = s.port := rfl
@[simp] theorem State.pending_response (s : State) : s.pending.response = none := rfl

/-! ### changeNotify -/

@[simp] theorem changeNotify_params (s : State) (addr : Addr) : (changeNotify s addr).params = s.params := rfl
@[simp] theorem changeNotify_a (s : State) (addr : Addr) : (changeNotify s addr).a = s.a := rfl
@[simp] theorem changeNotify_b (s : State) (addr : Addr) : (changeNotify s addr).b = s.b := rfl
@[simp] theorem changeNotify_z (s : State) (addr : Addr) : (changeNotify s addr).z = s.z := rfl
@[simp] theorem changeNotify_n (s : State) (addr : Addr) : (changeNotify s addr).n = s.n := rfl
@[simp] theorem changeNotify_o (s : State) (addr : Addr) : (changeNotify s addr).o = s.o := rfl
@[simp] theorem changeNotify_pc (s : State) (addr : Addr) : (changeNotify s addr).pc = s.pc := rfl
@[simp] theorem changeNotify_sp (s : State) (addr : Addr) : (changeNotify s addr).sp = s.sp := rfl
@[simp] theorem changeNotify_mem (s : State) (addr : Addr) : (changeNotify s addr).mem = s.mem := rfl
@[simp] theorem changeNotify_bp (s : State) (addr : Addr) : (changeNotify s addr).bp = s.bp := rfl
@[simp] theorem changeNotify_lwAddr (s : State) (addr : Addr) : (changeNotify s addr).lwAddr = addr := rfl
@[simp] theorem changeNotify_lwDirty (s : State) (addr : Addr) : (changeNotify s addr).lwDirty = true := rfl
@[simp] theorem changeNotify_traceSet (s : State) (addr : Addr) : (changeNotify s addr).traceSet = if s.traceEn then setInsert s.traceSet addr.toNat else s.traceSet := rfl
@[simp] theorem changeNotify_traceEn (s : State) (addr : Addr) : (changeNotify s addr).traceEn = s.traceEn := rfl
@[simp] theorem changeNotify_stackTrace (s : State) (addr : Addr) : (changeNotify s addr).stackTrace = s.stackTrace := rfl
@[simp] theorem changeNotify_outLog (s : State) (addr : Addr) : (changeNotify s addr).outLog = s.outLog := rfl
@[simp] theorem changeNotify_input (s : State) (addr : Addr) : (changeNotify s addr).input = s.input := rfl
@[simp] theorem changeNotify_port (s : State) (addr : Addr) : (changeNotify s addr).port = s.port := rfl
@[simp] theorem changeNotify_response (s : State) (addr : Addr) : (changeNotify s addr).response = s.response := rfl

/-! ### arith -/

@[simp] theorem arith_params (op : AluOp) (s : State) : (arith op s).params = s.params := rfl
@[simp] theorem arith_a (op : AluOp) (s : State) : (arith op s).a = aluInt op s.a.toInt s.b.toInt := rfl
@[simp] theorem arith_b (op : AluOp) (s : State) : (arith op s).b = s.b := rfl
@[simp] theorem arith_z (op : AluOp) (s : State) : (arith op s).z = decide ((aluInt op s.a.toInt s.b.toInt).toInt = 0) := rfl
@[simp] theorem arith_n (op : AluOp) (s : State) : (arith op s).n = decide ((aluInt op s.a.toInt s.b.toInt).toInt < 0) := rfl
@[simp] theorem arith_o (op : AluOp) (s : State) : (arith op s).o = newO s.params.oUpdate s.o
      (mismatch s.params.shadowFp op s.a.toInt s.b.toInt (aluInt op s.a.toInt s.b.toInt)) := rfl
@[simp] theorem arith_pc (op : AluOp) (s : State) : (arith op s).pc = toAddr s.params (s.pc + 1#32) := rfl
@[simp] theorem arith_sp (op : AluOp) (s : State) : (arith op s).sp = s.sp := rfl
@[simp] theorem arith_mem (op : AluOp) (s : State) : (arith op s).mem = s.mem := rfl
@[simp] theorem arith_bp (op : AluOp) (s : State) : (arith op s).bp = s.bp := rfl
@[simp] theorem arith_lwAddr (op : AluOp) (s : State) : (arith op s).lwAddr = s.lwAddr := rfl
@[simp] theorem arith_lwDirty (op : AluOp) (s : State) : (arith op s).lwDirty = s.lwDirty := rfl
@[simp] theorem arith_traceSet (op : AluOp) (s : State) : (arith op s).traceSet = s.traceSet := rfl
@[simp] theorem arith_traceEn (op : AluOp) (s : State) : (arith op s).traceEn = s.traceEn := rfl
@[simp] theorem arith_stackTrace (op : AluOp) (s : State) : (arith op s).stackTrace = s.stackTrace := rfl
@[simp] theorem arith_outLog (op : AluOp) (s : State) : (arith op s).outLog = s.outLog := rfl
@[simp] theorem arith_input (op : AluOp) (s : State) : (arith op s).input = s.input := rfl
@[simp] theorem arith_port (op : AluOp) (s : State) : (arith op s).port = s.port := rfl
@[simp] theorem arith_response (op : AluOp) (s : State) : (arith op s).response = s.response := rfl

/-! ### resetState -/

@[simp] theorem resetState_params (s : State) (image : List (Addr × Word)) : (resetState s image).params = s.params := rfl
@[simp] theorem resetState_a (s : State) (image : List (Addr × Word)) : (resetState s image).a = 0#32 := rfl
@[simp] theorem resetState_b (s : State) (image : List (Addr × Word)) : (resetState s image).b = 0#32 := rfl
@[simp] theorem resetState_z (s : State) (image : List (Addr × Word)) : (resetState s image).z = false := rfl
@[simp] theorem resetState_n (s : State) (image : List (Addr × Word)) : (resetState s image).n = false := rfl
@[simp] theorem resetState_o (s : State) (image : List (Addr × Word)) : (resetState s image).o = false := rfl
@[simp] theorem resetState_pc (s : State) (image : List (Addr × Word)) : (resetState s image).pc = toAddr s.params s.params.pcInit := rfl
@[simp] theorem resetState_sp (s : State) (image : List (Addr × Word)) : (resetState s image).sp = toAddr s.params s.params.spInit := rfl
@[simp] theorem resetState_mem (s : State) (image : List (Addr × Word)) : (resetState s image).mem = storeOfImage s.params image := rfl
@[simp] theorem resetState_bp (s : State) (image : List (Addr × Word)) : (resetState s image).bp = [] := rfl
@[simp] theorem resetState_lwAddr (s : State) (image : List (Addr × Word)) : (resetState s image).lwAddr = 0#32 := rfl
@[simp] theorem resetState_lwDirty (s : State) (image : List (Addr × Word)) : (resetState s image).lwDirty = false := rfl
@[simp] theorem resetState_traceSet (s : State) (image : List (Addr × Word)) : (resetState s image).traceSet = [] := rfl
@[simp] theorem resetState_traceEn (s : State) (image : List (Addr × Word)) : (resetState s image).traceEn = false := rfl
@[simp] theorem resetState_stackTrace (s : State) (image : List (Addr × Word)) : (resetState s image).stackTrace = false := rfl
@[simp] theorem resetState_outLog (s : State) (image : List (Addr × Word)) : (resetState s image).outLog = [] := rfl
@[simp] theorem resetState_input (s : State) (image : List (Addr × Word)) : (resetState s image).input = s.input := rfl
@[simp] theorem resetState_port (s : State) (image : List (Addr × Word)) : (resetState s image).port = s.port := rfl
@[simp] theorem resetState_response (s : State) (image : List (Addr × Word)) : (resetState s image).response = some { status := .ok, result := .nothing } := rfl

end Sys2Proof.Machine
end

