-- ==== Sys2Proof/Laws/Store.lean ====
section
/-! SUPPORT. Laws/Store.lean: what the memory store, the address sets and the Address operation do; each keeps its
canonical form. -/

namespace Sys2Proof.Machine

/-! ### The store -/

theorem storeGet_put_same (m : Store) (a : Nat) (v : Word) : storeGet (storePut m a v) a = some v := by
  induction m with
  | nil => simp [storePut, storeGet]
  | cons c rest ih =>
    obtain ⟨k, w⟩ := c
    simp only [storePut]
    split
    · simp [storeGet]
    · split
      · simp [storeGet]
      · simp [storeGet, *]

theorem storeGet_put_other (m : Store) (a k : Nat) (v : Word) (h : k ≠ a) :
    storeGet (storePut m a v) k = storeGet m k := by
  induction m with
  | nil => simp [storePut, storeGet, h]
  | cons c rest ih =>
    obtain ⟨j, w⟩ := c
    simp only [storePut]
    split
    · simp [storeGet, h]
    · split
      · subst_vars
        simp [storeGet, h]
      · simp [storeGet, ih]

theorem storeGet_put (m : Store) (a k : Nat) (v : Word) :
    storeGet (storePut m a v) k = if k = a then some v else storeGet m k := by
  split
  · subst_vars
    exact storeGet_put_same m _ v
  · exact storeGet_put_other m a k v ‹_›

/-- A write adds an address to the domain or keeps it; it removes none (20_memory.md R61). -/
theorem storeGet_put_isSome (m : Store) (a k : Nat) (v : Word) (h : (storeGet m k).isSome) :
    (storeGet (storePut m a v) k).isSome := by
  rw [storeGet_put]
  split
  · rfl
  · exact h

theorem storePut_mem (m : Store) (a : Nat) (v : Word) (x : Nat × Word) (h : x ∈ storePut m a v) :
    x = (a, v) ∨ x ∈ m := by
  induction m with
  | nil => simpa [storePut] using h
  | cons c rest ih =>
    obtain ⟨k, w⟩ := c
    simp only [storePut] at h
    split at h
    · simpa using h
    · split at h
      · rcases List.mem_cons.mp h with h | h
        · exact .inl h
        · exact .inr (List.mem_cons_of_mem _ h)
      · rcases List.mem_cons.mp h with h | h
        · exact .inr (h ▸ List.mem_cons_self ..)
        · rcases ih h with h | h
          · exact .inl h
          · exact .inr (List.mem_cons_of_mem _ h)

/-- MemWrite keeps the store's canonical form (R61, R68). -/
theorem storePut_wf (limit : Nat) (m : Store) (a : Nat) (v : Word) (ha : a < limit)
    (h : storeWf limit m) : storeWf limit (storePut m a v) := by
  refine ⟨?_, fun x hx => ?_⟩
  · induction m with
    | nil => simp [storePut]
    | cons c rest ih =>
      obtain ⟨k, w⟩ := c
      obtain ⟨hp, hl⟩ := h
      rw [List.pairwise_cons] at hp
      simp only [storePut]
      split
      · rename_i hk
        refine List.pairwise_cons.mpr ⟨fun y hy => ?_, List.pairwise_cons.mpr hp⟩
        rcases List.mem_cons.mp hy with rfl | hy
        · exact hk
        · exact Nat.lt_trans hk (hp.1 y hy)
      · split
        · subst_vars
          exact List.pairwise_cons.mpr ⟨fun y hy => hp.1 y hy, hp.2⟩
        · refine List.pairwise_cons.mpr ⟨fun y hy => ?_,
            ih ⟨hp.2, fun x hx => hl x (List.mem_cons_of_mem _ hx)⟩⟩
          rcases storePut_mem _ _ _ _ hy with rfl | hy
          · show k < a
            omega
          · exact hp.1 y hy
  · rcases storePut_mem _ _ _ _ hx with rfl | hx
    · exact ha
    · exact h.2 x hx

/-- An address of no cell of the list is uninitialized. -/
theorem storeGet_eq_none (m : Store) (a : Nat) (h : ∀ x ∈ m, x.1 ≠ a) : storeGet m a = none := by
  induction m with
  | nil => rfl
  | cons c rest ih =>
    have h1 := h c (List.mem_cons_self ..)
    simp only [storeGet]
    rw [if_neg (fun hh => h1 hh.symm)]
    exact ih fun x hx => h x (List.mem_cons_of_mem _ hx)

theorem storePut_length_le (m : Store) (a : Nat) (v : Word) :
    (storePut m a v).length ≤ m.length + 1 := by
  induction m with
  | nil => simp [storePut]
  | cons c rest ih =>
    obtain ⟨k, w⟩ := c
    simp only [storePut]
    split
    · simp
    · split
      · simp
      · simpa using ih

/-- Overwriting an initialized address needs no new cell (R65). -/
theorem storePut_length_old (limit : Nat) (m : Store) (a : Nat) (v : Word) (h : storeWf limit m)
    (hs : (storeGet m a).isSome) : (storePut m a v).length = m.length := by
  induction m with
  | nil => simp [storeGet] at hs
  | cons c rest ih =>
    obtain ⟨k, w⟩ := c
    obtain ⟨hp, hl⟩ := h
    rw [List.pairwise_cons] at hp
    simp only [storePut]
    split
    · rename_i hk
      have hn : storeGet ((k, w) :: rest) a = none :=
        storeGet_eq_none _ _ fun x hx => by
          rcases List.mem_cons.mp hx with rfl | hx
          · exact (Nat.ne_of_lt hk).symm
          · exact (Nat.ne_of_lt (Nat.lt_trans hk (hp.1 x hx))).symm
      simp [hn] at hs
    · split
      · simp
      · rename_i h1 h2
        simp only [storeGet, if_neg h2] at hs
        simp [ih ⟨hp.2, fun x hx => hl x (List.mem_cons_of_mem _ hx)⟩ hs]

/-! ### Address sets -/

theorem mem_setInsert (l : AddrSet) (a k : Nat) : k ∈ setInsert l a ↔ k = a ∨ k ∈ l := by
  induction l with
  | nil => simp [setInsert]
  | cons j rest ih =>
    simp only [setInsert]
    split
    · simp
    · split
      · subst_vars
        simp
      · simp only [List.mem_cons, ih]
        tauto

theorem mem_setRemove (l : AddrSet) (a k : Nat) : k ∈ setRemove l a ↔ k ∈ l ∧ k ≠ a := by
  simp [setRemove]

theorem setInsert_wf (limit : Nat) (l : AddrSet) (a : Nat) (ha : a < limit) (h : setWf limit l) :
    setWf limit (setInsert l a) := by
  refine ⟨?_, fun x hx => ?_⟩
  · induction l with
    | nil => simp [setInsert]
    | cons k rest ih =>
      obtain ⟨hp, hl⟩ := h
      rw [List.pairwise_cons] at hp
      simp only [setInsert]
      split
      · rename_i hk
        refine List.pairwise_cons.mpr ⟨fun y hy => ?_, List.pairwise_cons.mpr hp⟩
        rcases List.mem_cons.mp hy with rfl | hy
        · exact hk
        · exact Nat.lt_trans hk (hp.1 y hy)
      · split
        · exact List.pairwise_cons.mpr hp
        · refine List.pairwise_cons.mpr ⟨fun y hy => ?_,
            ih ⟨hp.2, fun x hx => hl x (List.mem_cons_of_mem _ hx)⟩⟩
          rcases (mem_setInsert _ _ _).mp hy with rfl | hy
          · omega
          · exact hp.1 y hy
  · rcases (mem_setInsert _ _ _).mp hx with rfl | hx
    · exact ha
    · exact h.2 x hx

theorem setRemove_wf (limit : Nat) (l : AddrSet) (a : Nat) (h : setWf limit l) :
    setWf limit (setRemove l a) :=
  ⟨h.1.filter _, fun x hx => h.2 x ((mem_setRemove l a x).mp hx).1⟩

theorem setInsert_length_le (l : AddrSet) (a : Nat) : (setInsert l a).length ≤ l.length + 1 := by
  induction l with
  | nil => simp [setInsert]
  | cons k rest ih =>
    simp only [setInsert]
    split
    · simp
    · split
      · simp
      · simpa using ih

/-- Adding a member changes nothing: duplicates collapse (R31, R66). -/
theorem setInsert_of_mem (limit : Nat) (l : AddrSet) (a : Nat) (h : setWf limit l) (ha : a ∈ l) :
    setInsert l a = l := by
  induction l with
  | nil => simp at ha
  | cons k rest ih =>
    obtain ⟨hp, hl⟩ := h
    rw [List.pairwise_cons] at hp
    simp only [setInsert]
    split
    · rename_i hk
      rcases List.mem_cons.mp ha with rfl | ha
      · omega
      · have := hp.1 a ha
        omega
    · split
      · rfl
      · rcases List.mem_cons.mp ha with rfl | ha
        · contradiction
        · rw [ih ⟨hp.2, fun x hx => hl x (List.mem_cons_of_mem _ hx)⟩ ha]

/-! ### Addresses -/

theorem addrW_le (p : Params) : p.addrW ≤ 32 := by
  have := p.addrExtra.isLt
  simp only [Params.addrW]
  omega

theorem le_addrW (p : Params) : 24 ≤ p.addrW := Nat.le_add_right ..

theorem pow_addrW_le (p : Params) : 2 ^ p.addrW ≤ 2 ^ 32 := Nat.pow_le_pow_right (by omega) (addrW_le p)

theorem le_pow_addrW (p : Params) : 2 ^ 24 ≤ 2 ^ p.addrW := Nat.pow_le_pow_right (by omega) (le_addrW p)

/-- The unsigned value of an Address (R73). -/
theorem toAddr_toNat (p : Params) (w : Word) : (toAddr p w).toNat = w.toNat % 2 ^ p.addrW := by
  have h1 : w.toNat % 2 ^ p.addrW < 2 ^ p.addrW := Nat.mod_lt _ (by positivity)
  have h2 := pow_addrW_le p
  simp only [toAddr, BitVec.toNat_ofNat]
  exact Nat.mod_eq_of_lt (by omega)

theorem toAddr_lt (p : Params) (w : Word) : (toAddr p w).toNat < 2 ^ p.addrW := by
  rw [toAddr_toNat]
  exact Nat.mod_lt _ (by positivity)

/-- A pattern of ADDR_W bits is its own Address. -/
theorem toAddr_of_lt (p : Params) (w : Word) (h : w.toNat < 2 ^ p.addrW) : toAddr p w = w := by
  apply BitVec.eq_of_toNat_eq
  rw [toAddr_toNat, Nat.mod_eq_of_lt h]

theorem zext32_toNat (x : Operand) : (zext32 x).toNat = x.toNat := by
  have := x.isLt
  simp only [zext32, BitVec.toNat_setWidth]
  omega

/-- An operand names an Address below 2^24, whatever ADDR_W (R112). -/
theorem zext32_lt (p : Params) (x : Operand) : (zext32 x).toNat < 2 ^ p.addrW := by
  have h1 := x.isLt
  have h2 := le_pow_addrW p
  rw [zext32_toNat]
  omega

/-- Decrementing and incrementing an Address modulo 2^ADDR_W undo each other (R29). -/
theorem toAddr_pred_succ (p : Params) (a : Addr) (h : a.toNat < 2 ^ p.addrW) :
    toAddr p (toAddr p (a - 1#32) + 1#32) = a := by
  apply BitVec.eq_of_toNat_eq
  obtain ⟨c, hc⟩ : 2 ^ p.addrW ∣ 2 ^ 32 := pow_dvd_pow 2 (addrW_le p)
  have hb := toAddr_lt p (a - 1#32)
  have h24 := le_pow_addrW p
  have hsub : (a - 1#32).toNat = if a.toNat = 0 then 2 ^ 32 - 1 else a.toNat - 1 := by
    have := a.isLt
    rw [BitVec.toNat_sub]
    simp only [BitVec.toNat_ofNat]
    split <;> omega
  have hm : (a - 1#32).toNat % 2 ^ p.addrW = if a.toNat = 0 then 2 ^ p.addrW - 1 else a.toNat - 1 := by
    rw [hsub]
    split
    · have hc0 : 0 < c := by
        rcases Nat.eq_zero_or_pos c with rfl | h0
        · simp at hc
        · exact h0
      obtain ⟨d, rfl⟩ : ∃ d, c = d + 1 := ⟨c - 1, by omega⟩
      have : 2 ^ 32 - 1 = (2 ^ p.addrW - 1) + 2 ^ p.addrW * d := by
        rw [hc, Nat.mul_add, Nat.mul_one]
        omega
      rw [this, Nat.add_mul_mod_self_left, Nat.mod_eq_of_lt (by omega)]
    · exact Nat.mod_eq_of_lt (by omega)
  have hle := pow_addrW_le p
  rw [toAddr_toNat, BitVec.toNat_add, toAddr_toNat, hm]
  simp only [BitVec.toNat_ofNat]
  have h0 : 1 % 2 ^ 32 = 1 := by norm_num
  rw [h0, Nat.mod_mod_of_dvd _ (pow_dvd_pow 2 (addrW_le p))]
  split
  · have : 2 ^ p.addrW - 1 + 1 = 2 ^ p.addrW := by omega
    rw [this, Nat.mod_self]
    omega
  · have : a.toNat - 1 + 1 = a.toNat := by omega
    rw [this, Nat.mod_eq_of_lt h]

/-! ### The image of RESET -/

theorem storeOfImage_wf (p : Params) (image : List (Addr × Word)) :
    storeWf (2 ^ p.addrW) (storeOfImage p image) := by
  have key : ∀ (cs : List (Addr × Word)) (m : Store), storeWf (2 ^ p.addrW) m →
      storeWf (2 ^ p.addrW) (cs.foldl (fun m c => storePut m (toAddr p c.1).toNat c.2) m) := by
    intro cs
    induction cs with
    | nil => exact fun m h => h
    | cons c rest ih => exact fun m h => ih _ (storePut_wf _ m _ c.2 (toAddr_lt p c.1) h)
  exact key image [] ⟨List.Pairwise.nil, fun _ h => absurd h (List.not_mem_nil)⟩

/-- The reset memory holds the canonical form. -/
theorem reset_mem_wf : storeWf (2 ^ State.reset.params.addrW) State.reset.mem := by decide

/-- The state of R42 is what RESET with an empty image leaves (R320, R322). -/
theorem resetState_reset : resetState State.reset [] = State.reset := by decide

end Sys2Proof.Machine
end

