-- ==== Sys2Proof/Laws/Ops.lean ====
section
/-! SUPPORT. Laws/Ops.lean: what each shared operation can do, said once. -/

namespace Sys2Proof.Machine

/-! ### Outcomes -/

@[simp] theorem complete_eq_next (s t : State) :
    complete s = .next t ↔ s.reply .ok .nothing = t := by simp [complete]

@[simp] theorem raise_eq_next (e : Status) (s t : State) :
    raise e s = .next t ↔ s.reply e .nothing = t := by simp [raise]

/-- If `onNext f o` answers a next state, it is `f` of the one `o` answers. -/
theorem onNext_eq_next (f : State → State) (o : Host.Outcome State Fault Refusal) (t : State) :
    onNext f o = .next t ↔ ∃ u, o = .next u ∧ f u = t := by
  cases o <;> simp [onNext]

theorem onNext_eq_fault (f : State → State) (o : Host.Outcome State Fault Refusal) (r : Fault) :
    onNext f o = .fault r ↔ o = .fault r := by
  cases o <;> simp [onNext]

theorem onNext_eq_refused (f : State → State) (o : Host.Outcome State Fault Refusal) (r : Refusal) :
    onNext f o = .refused r ↔ o = .refused r := by
  cases o <;> simp [onNext]

/-! ### Reads -/

/-- Two states with one memory and one set of parameters read alike (20_memory.md R62). -/
theorem memRead_congr (s t : State) (hm : t.mem = s.mem) (hp : t.params = s.params) (a : Addr) :
    memRead t a = memRead s a := by simp [memRead, hm, hp]

/-- The indirect pointer is an Address (R73). -/
theorem pointerAt_lt (s : State) (x : Operand) : (pointerAt s x).toNat < 2 ^ s.params.addrW :=
  toAddr_lt _ _

/-- A STORE-class operand names an Address (R145). -/
theorem storeAddr_lt (s : State) (m : Mode) (x : Operand) (ea : Addr) (h : storeAddr s m x = some ea) :
    ea.toNat < 2 ^ s.params.addrW := by
  cases m <;> simp only [storeAddr, Option.some.injEq, reduceCtorEq] at h <;> subst h
  · exact zext32_lt _ _
  · exact pointerAt_lt _ _

/-! ### Writes -/

/-- All that MemWrite can do (R64, R66): it answers nothing, or it stores the cell and, unless
suppressed, notifies the change tracker. -/
theorem memWrite_cases (s t : State) (addr : Addr) (v : Word) (suppress : Bool)
    (h : memWrite s addr v suppress = some t) :
    writeFails s addr suppress = false ∧
      t = { s with
        mem := storePut s.mem addr.toNat v
        lwAddr := if suppress then s.lwAddr else addr
        lwDirty := if suppress then s.lwDirty else true
        traceSet := if suppress then s.traceSet
          else if s.traceEn then setInsert s.traceSet addr.toNat else s.traceSet } := by
  unfold memWrite at h
  cases hf : writeFails s addr suppress with
  | true => simp [hf] at h
  | false =>
    refine ⟨rfl, ?_⟩
    cases suppress <;> simp [hf, changeNotify] at h <;> simp [← h]

/-- MemWrite fails exactly when one of its two capacity checks does (R64). -/
theorem memWrite_eq_none (s : State) (addr : Addr) (v : Word) (suppress : Bool) :
    memWrite s addr v suppress = none ↔ writeFails s addr suppress = true := by
  unfold memWrite
  cases writeFails s addr suppress <;> simp

/-- A handler with a write commits whole or, when the write fails, not at all (40_execution_engine.md R148). -/
theorem commitWrite_cases (s t : State) (addr : Addr) (v : Word) (suppress : Bool)
    (rest : State → State) (h : commitWrite s addr v suppress rest = .next t) :
    (writeFails s addr suppress = true ∧ t = s.reply .outOfMemory .nothing) ∨
      ∃ u, memWrite s addr v suppress = some u ∧ t = (rest u).reply .ok .nothing := by
  unfold commitWrite at h
  cases hw : memWrite s addr v suppress with
  | none =>
    simp only [hw, raise_eq_next] at h
    exact .inl ⟨(memWrite_eq_none s addr v suppress).mp hw, h.symm⟩
  | some u =>
    simp only [hw, complete_eq_next] at h
    exact .inr ⟨u, rfl, h.symm⟩

/-- A handler with a write always answers a next state. -/
theorem commitWrite_next (s : State) (addr : Addr) (v : Word) (suppress : Bool)
    (rest : State → State) : ∃ t, commitWrite s addr v suppress rest = .next t := by
  unfold commitWrite
  cases memWrite s addr v suppress with
  | none => exact ⟨_, rfl⟩
  | some u => exact ⟨_, rfl⟩

/-! ### Instructions

For each meaning, what it can do when it answers a next state. -/

theorem execLda_cases (m : Mode) (x : Operand) (s t : State) (h : execLda m x s = .next t) :
    (loadValue s m x = none ∧ t = s.reply .invalidInstruction .nothing) ∨
      ∃ v, loadValue s m x = some v ∧
        t = ({ (({ s with a := v }).setZN v) with o := false }).advance.reply .ok .nothing := by
  unfold execLda at h
  cases hv : loadValue s m x with
  | none => simp only [hv, raise_eq_next] at h; exact .inl ⟨rfl, h.symm⟩
  | some v => simp only [hv, complete_eq_next] at h; exact .inr ⟨v, rfl, h.symm⟩

theorem execLdb_cases (m : Mode) (x : Operand) (s t : State) (h : execLdb m x s = .next t) :
    (loadValue s m x = none ∧ t = s.reply .invalidInstruction .nothing) ∨
      ∃ v, loadValue s m x = some v ∧ t = ({ s with b := v }).advance.reply .ok .nothing := by
  unfold execLdb at h
  cases hv : loadValue s m x with
  | none => simp only [hv, raise_eq_next] at h; exact .inl ⟨rfl, h.symm⟩
  | some v => simp only [hv, complete_eq_next] at h; exact .inr ⟨v, rfl, h.symm⟩

theorem execSta_cases (m : Mode) (x : Operand) (s t : State) (h : execSta m x s = .next t) :
    (storeAddr s m x = none ∧ t = s.reply .invalidInstruction .nothing) ∨
      ∃ ea, storeAddr s m x = some ea ∧ commitWrite s ea s.a false State.advance = .next t := by
  unfold execSta at h
  cases hv : storeAddr s m x with
  | none => simp only [hv, raise_eq_next] at h; exact .inl ⟨rfl, h.symm⟩
  | some ea => simp only [hv] at h; exact .inr ⟨ea, rfl, h⟩

theorem execStb_cases (m : Mode) (x : Operand) (s t : State) (h : execStb m x s = .next t) :
    (storeAddr s m x = none ∧ t = s.reply .invalidInstruction .nothing) ∨
      ∃ ea, storeAddr s m x = some ea ∧ commitWrite s ea s.b false State.advance = .next t := by
  unfold execStb at h
  cases hv : storeAddr s m x with
  | none => simp only [hv, raise_eq_next] at h; exact .inl ⟨rfl, h.symm⟩
  | some ea => simp only [hv] at h; exact .inr ⟨ea, rfl, h⟩

theorem execDiv_cases (s t : State) (h : execDiv s = .next t) :
    (s.b.toInt = 0 ∧ t = s.reply .divideByZero .nothing) ∨
      (s.b.toInt ≠ 0 ∧ t = (arith .div s).reply .ok .nothing) := by
  unfold execDiv at h
  split at h
  · simp only [raise_eq_next] at h; exact .inl ⟨‹_›, h.symm⟩
  · split at h
    · simp at h
    · simp only [complete_eq_next] at h; exact .inr ⟨‹_›, h.symm⟩

theorem execInp_cases (s t : State) (h : execInp s = .next t) :
    (s.input = [] ∧ t = s.pending) ∨
      ∃ v rest, s.input = v :: rest ∧
        t = ({ (({ s with a := v, input := rest }).setZN v) with o := false }).advance.reply .ok
          .nothing := by
  unfold execInp at h
  cases hi : s.input with
  | nil => simp only [hi, Host.Outcome.next.injEq] at h; exact .inl ⟨rfl, h.symm⟩
  | cons v rest => simp only [hi, complete_eq_next] at h; exact .inr ⟨v, rest, rfl, h.symm⟩

theorem jumpIf_cases (c : Bool) (x : Operand) (s t : State) (h : jumpIf c x s = .next t) :
    (c = true ∧ t = ({ s with pc := jumpTarget x }).reply .ok .nothing) ∨
      (c = false ∧ t = s.advance.reply .ok .nothing) := by
  unfold jumpIf at h
  simp only [complete_eq_next] at h
  cases c
  · exact .inr ⟨rfl, h.symm⟩
  · exact .inl ⟨rfl, h.symm⟩

/-- The only fault of an instruction is DIV's, under DIV_OVF = UNDEFINED, at -2^31 / -1 (42_arithmetic.md R210). -/
theorem exec_fault_cases (i : Instr) (s : State) (r : Fault) (h : exec i s = .fault r) :
    i = .div ∧ r = .divOverflowUndefined ∧ s.params.divOvf = .undefined ∧ divOverflows s = true := by
  cases i with
  | lda m x => simp only [exec, execLda] at h; split at h <;> simp [raise, complete] at h
  | ldb m x => simp only [exec, execLdb] at h; split at h <;> simp [raise, complete] at h
  | sta m x =>
    simp only [exec, execSta] at h
    split at h
    · simp [raise] at h
    · rename_i ea _
      obtain ⟨t, ht⟩ := commitWrite_next s ea s.a false State.advance
      simp [ht] at h
  | stb m x =>
    simp only [exec, execStb] at h
    split at h
    · simp [raise] at h
    · rename_i ea _
      obtain ⟨t, ht⟩ := commitWrite_next s ea s.b false State.advance
      simp [ht] at h
  | jsb x =>
    simp only [exec, execJsb] at h
    obtain ⟨t, ht⟩ := commitWrite_next s s.sp (returnAddr s) (!s.stackTrace)
      (fun t => { t with sp := toAddr s.params (s.sp - 1#32), pc := jumpTarget x })
    simp [ht] at h
  | div =>
    simp only [exec, execDiv] at h
    split at h
    · simp [raise] at h
    · split at h
      · rename_i hc
        simp only [Bool.and_eq_true, beq_iff_eq] at hc
        simp only [Host.Outcome.fault.injEq] at h
        exact ⟨rfl, h.symm, hc.2, hc.1⟩
      · simp [complete] at h
  | inp => simp only [exec, execInp] at h; split at h <;> simp [complete] at h
  | nop | add | sub | mul | rts | out | hlt | jmp | jsp | jsn | jiz | jof =>
    simp [exec, execNop, execAdd, execSub, execMul, execRts, execOut, execHlt, execJmp, execJsp,
      execJsn, execJiz, execJof, jumpIf, raise, complete] at h

/-- No instruction is refused. -/
theorem exec_not_refused (i : Instr) (s : State) (r : Refusal) : exec i s ≠ .refused r := by
  intro h
  cases i with
  | lda m x => simp only [exec, execLda] at h; split at h <;> simp [raise, complete] at h
  | ldb m x => simp only [exec, execLdb] at h; split at h <;> simp [raise, complete] at h
  | sta m x =>
    simp only [exec, execSta] at h
    split at h
    · simp [raise] at h
    · rename_i ea _
      obtain ⟨t, ht⟩ := commitWrite_next s ea s.a false State.advance
      simp [ht] at h
  | stb m x =>
    simp only [exec, execStb] at h
    split at h
    · simp [raise] at h
    · rename_i ea _
      obtain ⟨t, ht⟩ := commitWrite_next s ea s.b false State.advance
      simp [ht] at h
  | jsb x =>
    simp only [exec, execJsb] at h
    obtain ⟨t, ht⟩ := commitWrite_next s s.sp (returnAddr s) (!s.stackTrace)
      (fun t => { t with sp := toAddr s.params (s.sp - 1#32), pc := jumpTarget x })
    simp [ht] at h
  | div =>
    simp only [exec, execDiv] at h
    split at h
    · simp [raise] at h
    · split at h <;> simp [complete] at h
  | inp => simp only [exec, execInp] at h; split at h <;> simp [complete] at h
  | nop | add | sub | mul | rts | out | hlt | jmp | jsp | jsn | jiz | jof =>
    simp [exec, execNop, execAdd, execSub, execMul, execRts, execOut, execHlt, execJmp, execJsp,
      execJsn, execJiz, execJof, jumpIf, raise, complete] at h

/-! ### The engine and the port -/

/-- All that `execute` can do when it answers a next state (R141). -/
theorem execute_cases (w : Word) (commit : Bool) (s t : State) (h : execute w commit s = .next t) :
    (decode s.params.layout w = .unknownInstruction ∧ t = s.reply .unknownInstruction .nothing) ∨
      (decode s.params.layout w = .invalidInstruction ∧ t = s.reply .invalidInstruction .nothing) ∨
      ∃ i u, decode s.params.layout w = .ok i ∧ exec i s = .next u ∧
        t = if commit then u else { u with pc := s.pc } := by
  unfold execute at h
  cases hd : decode s.params.layout w with
  | unknownInstruction => simp only [hd, raise_eq_next] at h; exact .inl ⟨rfl, h.symm⟩
  | invalidInstruction => simp only [hd, raise_eq_next] at h; exact .inr (.inl ⟨rfl, h.symm⟩)
  | ok i =>
    simp only [hd, onNext_eq_next] at h
    obtain ⟨u, hu, ht⟩ := h
    exact .inr (.inr ⟨i, u, rfl, hu, ht.symm⟩)

/-- All that the breakpoint check can do (R151, R152). -/
theorem checkBreakpoint_cases (s : State) :
    (checkBreakpoint s = s ∧ (returnedOk s && s.bp.contains s.pc.toNat) = false) ∨
      (checkBreakpoint s = s.reply .breakpoint .nothing ∧
        (returnedOk s && s.bp.contains s.pc.toNat) = true) := by
  unfold checkBreakpoint
  cases returnedOk s && s.bp.contains s.pc.toNat <;> simp

/-- All that STEP can do when it answers a next state (R151). -/
theorem stepCommand_cases (s t : State) (h : stepCommand s = .next t) :
    ∃ u, execute (fetch s) true s = .next u ∧ t = checkBreakpoint u := by
  obtain ⟨u, hu, ht⟩ := (onNext_eq_next _ _ _).mp h
  exact ⟨u, hu, ht.symm⟩

/-- All that holding the STEP of an empty port can do: nothing once it has returned, and otherwise it puts
that STEP on the port. -/
theorem holdStep_cases (s : State) :
    (s.response.isSome = true ∧ holdStep s = s) ∨
      (s.response = none ∧ holdStep s = { s with port := [.step] }) := by
  unfold holdStep
  cases s.response <;> simp

/-- All that retiring a command can do: it leaves the port once it has returned, and otherwise nothing
changes. -/
theorem retire_cases (rest : List Command) (s : State) :
    (s.response.isSome = true ∧ retire rest s = { s with port := rest }) ∨
      (s.response = none ∧ retire rest s = s) := by
  unfold retire
  cases s.response <;> simp

/-- All that one step of the machine can do when it answers a next state. -/
theorem step_cases (s t : State) (h : step s = .next t) :
    (s.port = [] ∧ ∃ u, stepCommand s = .next u ∧ t = holdStep u) ∨
      ∃ c rest u, s.port = c :: rest ∧ runCommand c s = .next u ∧ t = retire rest u := by
  unfold step portTurn at h
  cases hp : s.port with
  | nil =>
    simp only [hp, onNext_eq_next] at h
    obtain ⟨u, hu, ht⟩ := h
    exact .inl ⟨rfl, u, hu, ht.symm⟩
  | cons c rest =>
    simp only [hp, onNext_eq_next] at h
    obtain ⟨u, hu, ht⟩ := h
    exact .inr ⟨c, rest, u, rfl, hu, ht.symm⟩

end Sys2Proof.Machine
end

