-- ==== Sys2Proof/Laws/PerInstr.lean ====
section
/-! SUPPORT. Laws/PerInstr.lean: what holds of each instruction as it is encoded, one lemma per constructor. -/

namespace Sys2Proof.Laws

/-- A packed word has the fields it was packed from (30_encoding.md R104). -/
theorem opcField_pack (l : Layout) (o : BitVec 6) (m : BitVec 2) (x : Operand) :
    opcField l (pack l o m x) = o := by
  cases l <;> (apply BitVec.eq_of_getLsbD_eq; intro j hj; simp [opcField, pack]; grind)

theorem modeField_pack (l : Layout) (o : BitVec 6) (m : BitVec 2) (x : Operand) :
    modeField l (pack l o m x) = m := by
  cases l <;> (apply BitVec.eq_of_getLsbD_eq; intro j hj; simp [modeField, pack]; grind)

theorem opndField_pack (l : Layout) (o : BitVec 6) (m : BitVec 2) (x : Operand) :
    opndField l (pack l o m x) = x := by
  cases l <;> (apply BitVec.eq_of_getLsbD_eq; intro j hj; simp [opndField, pack]; grind)

/-- OPCODES is indexed by the opcode numbers (R106). -/
theorem ofNumber_number (op : Opcode) : Opcode.ofNumber op.number = some op := by
  cases op <;> rfl

/-- The mode numbers name the modes (R105). -/
theorem mode_ofBits_bits (m : Mode) : Mode.ofBits m.bits = m := by
  cases m <;> rfl

end Sys2Proof.Laws

/-! ### The fields of every encoded instruction

Each canonical word holds its opcode's number, its mode's number and its operand, in either layout
(R104, R106, R122). -/

namespace Sys2Proof.Laws.EncodedFields

def Statement (i : Instr) : Prop :=
  ∀ l : Layout, opcField l (encode l i) = i.opcode.number ∧ modeField l (encode l i) = i.mode.bits ∧
    opndField l (encode l i) = i.operand

theorem of_pack (i : Instr) : Statement i := fun l =>
  ⟨opcField_pack l _ _ _, modeField_pack l _ _ _, opndField_pack l _ _ _⟩

theorem nop : Statement (.nop) := of_pack _
theorem lda (m : Mode) (x : Operand) : Statement (.lda m x) := of_pack _
theorem ldb (m : Mode) (x : Operand) : Statement (.ldb m x) := of_pack _
theorem sta (m : Mode) (x : Operand) : Statement (.sta m x) := of_pack _
theorem stb (m : Mode) (x : Operand) : Statement (.stb m x) := of_pack _
theorem add : Statement (.add) := of_pack _
theorem sub : Statement (.sub) := of_pack _
theorem mul : Statement (.mul) := of_pack _
theorem div : Statement (.div) := of_pack _
theorem rts : Statement (.rts) := of_pack _
theorem inp : Statement (.inp) := of_pack _
theorem out : Statement (.out) := of_pack _
theorem hlt : Statement (.hlt) := of_pack _
theorem jsb (x : Operand) : Statement (.jsb x) := of_pack _
theorem jmp (x : Operand) : Statement (.jmp x) := of_pack _
theorem jsp (x : Operand) : Statement (.jsp x) := of_pack _
theorem jsn (x : Operand) : Statement (.jsn x) := of_pack _
theorem jiz (x : Operand) : Statement (.jiz x) := of_pack _
theorem jof (x : Operand) : Statement (.jof x) := of_pack _

end Sys2Proof.Laws.EncodedFields

/-! ### The mode of every well-formed instruction is one its opcode permits (R107) -/

namespace Sys2Proof.Laws.ModePermitted

def Statement (i : Instr) : Prop := i.wellFormed = true → i.opcode.permits i.mode = true

theorem nop : Statement (.nop) := fun _ => rfl
theorem lda (m : Mode) (x : Operand) : Statement (.lda m x) := fun h => h
theorem ldb (m : Mode) (x : Operand) : Statement (.ldb m x) := fun h => h
theorem sta (m : Mode) (x : Operand) : Statement (.sta m x) := fun h => h
theorem stb (m : Mode) (x : Operand) : Statement (.stb m x) := fun h => h
theorem add : Statement (.add) := fun _ => rfl
theorem sub : Statement (.sub) := fun _ => rfl
theorem mul : Statement (.mul) := fun _ => rfl
theorem div : Statement (.div) := fun _ => rfl
theorem rts : Statement (.rts) := fun _ => rfl
theorem inp : Statement (.inp) := fun _ => rfl
theorem out : Statement (.out) := fun _ => rfl
theorem hlt : Statement (.hlt) := fun _ => rfl
theorem jsb (x : Operand) : Statement (.jsb x) := fun _ => rfl
theorem jmp (x : Operand) : Statement (.jmp x) := fun _ => rfl
theorem jsp (x : Operand) : Statement (.jsp x) := fun _ => rfl
theorem jsn (x : Operand) : Statement (.jsn x) := fun _ => rfl
theorem jiz (x : Operand) : Statement (.jiz x) := fun _ => rfl
theorem jof (x : Operand) : Statement (.jof x) := fun _ => rfl

end Sys2Proof.Laws.ModePermitted
end

