-- ==== Sys2Proof/Laws/Run.lean ====
section
/-! SUPPORT. Laws/Run.lean: runs of the machine behind the host's interface, unrolled one step at a time. -/

namespace Sys2Proof.Machine

/-- A run whose first step answers a next state goes on from it. -/
theorem run_succ_of_step (M : Host.Core) (n : Nat) (s t : M.State) (h : M.step s = .next t) :
    M.run (n + 1) s = M.run n t := by simp [Host.Core.run, h]

theorem core_run_zero (s : State) : Sys2Proof.core.run 0 s = .next s := rfl

theorem core_run_succ (n : Nat) (s t : State) (h : step s = .next t) :
    Sys2Proof.core.run (n + 1) s = Sys2Proof.core.run n t :=
  run_succ_of_step Sys2Proof.core n s t h

end Sys2Proof.Machine
end

