-- ==== Sys2Proof/Tests/Slice0.lean ====
section
/-! SUPPORT. Tests/Slice0.lean: checks of the model on small inputs. Expected values are those of
95_test_vectors.md, at the place each docstring names, unless it says otherwise. The theorems named
witness_… show a state and operands that meet the hypotheses of the obligation they name. -/

namespace Sys2Proof.Tests

open Sys2Proof.Machine

/-! ### Helpers -/

/-- The state after reset with cells in memory and the program counter set. -/
def at_ (pc : Addr) (mem : Store) : State := { State.reset with pc := pc, mem := mem }

/-- The state after reset with A and B set. -/
def ab (a b : Word) : State := { State.reset with a := a, b := b }

/-- The state after reset with commands on the port. -/
def ask (cs : List Command) : State := { State.reset with port := cs }

/-- What `f` sees of a next state; nothing of a fault or a refusal. -/
def see {α : Type} (f : State → α) : Host.Outcome State Fault Refusal → Option α
  | .next t => some (f t)
  | .fault _ => none
  | .refused _ => none

/-- The fault of an outcome. -/
def faultOf : Host.Outcome State Fault Refusal → Option Fault
  | .next _ => none
  | .fault r => some r
  | .refused _ => none

/-- A, Z, N, O and PC. -/
structure AluView where
  a : Word
  z : Bool
  n : Bool
  o : Bool
  pc : Addr
deriving DecidableEq, Repr

/-- A, Z, N, O and PC of a state. -/
def alu (t : State) : AluView := ⟨t.a, t.z, t.n, t.o, t.pc⟩

/-- The parameters with the least address width and the other value of every choice. -/
def otherParams : Params :=
  { Params.default with
    addrExtra := 0, layout := .msbFirst, shadowFp := .binary32, oUpdate := .sticky, divOvf := .undefined
    cellCapacity := some 1, traceCapacity := some 1 }

/-! ### Well-formedness: each check refuses an ill-formed term -/

theorem test_ill_formed_lda_indexed : (Instr.lda .idx 5#24).wellFormed = false := by decide
theorem test_ill_formed_ldb_indexed : (Instr.ldb .idx 5#24).wellFormed = false := by decide
theorem test_ill_formed_sta_immediate : (Instr.sta .imm 5#24).wellFormed = false := by decide
theorem test_ill_formed_sta_indexed : (Instr.sta .idx 5#24).wellFormed = false := by decide
theorem test_ill_formed_stb_immediate : (Instr.stb .imm 5#24).wellFormed = false := by decide
theorem test_ill_formed_stb_indexed : (Instr.stb .idx 5#24).wellFormed = false := by decide

/-! ### Decoding: words written out from the fields of 30_encoding.md R101 and R106 -/

/-- Operand (24 bits), mode (2 bits), opcode (6 bits), in the layout LSB_FIRST. -/
theorem test_decode_loads_and_stores :
    decode .lsbFirst 0b00000000000000000000010100000001#32 = .ok (.lda .imm 5#24) ∧
    decode .lsbFirst 0b11111111111111111111111101000001#32 = .ok (.lda .dir 16777215#24) ∧
    decode .lsbFirst 0b00000000000000000110010010000001#32 = .ok (.lda .ind 100#24) ∧
    decode .lsbFirst 0b10000000000000000000000000000010#32 = .ok (.ldb .imm 0x800000#24) ∧
    decode .lsbFirst 0b00000000000000000000011101000010#32 = .ok (.ldb .dir 7#24) ∧
    decode .lsbFirst 0b11111111111111111111111110000010#32 = .ok (.ldb .ind 16777215#24) ∧
    decode .lsbFirst 0b00000000000000000110010001000011#32 = .ok (.sta .dir 100#24) ∧
    decode .lsbFirst 0b00000000000000000000011110000011#32 = .ok (.sta .ind 7#24) ∧
    decode .lsbFirst 0b00000000000000000000000001000100#32 = .ok (.stb .dir 0#24) ∧
    decode .lsbFirst 0b00000000000000000001010010000100#32 = .ok (.stb .ind 20#24) := by decide

/-- The canonical no-operand words, and words whose mode and operand are ignored (2.2). -/
theorem test_decode_no_operand :
    decode .lsbFirst 0b11111111111111111111111100000000#32 = .ok .nop ∧
    decode .lsbFirst 0b11111111111111111111111100000101#32 = .ok .add ∧
    decode .lsbFirst 0b11111111111111111111111100000110#32 = .ok .sub ∧
    decode .lsbFirst 0b11111111111111111111111100000111#32 = .ok .mul ∧
    decode .lsbFirst 0b11111111111111111111111100001000#32 = .ok .div ∧
    decode .lsbFirst 0b11111111111111111111111100001001#32 = .ok .rts ∧
    decode .lsbFirst 0b11111111111111111111111100001010#32 = .ok .inp ∧
    decode .lsbFirst 0b11111111111111111111111100001011#32 = .ok .out ∧
    decode .lsbFirst 0b11111111111111111111111100001100#32 = .ok .hlt ∧
    decode .lsbFirst 0x12345600#32 = .ok .nop ∧
    decode .lsbFirst 0x000000C5#32 = .ok .add := by decide

theorem test_decode_jumps :
    decode .lsbFirst 0b00000000000000000000010101001101#32 = .ok (.jsb 5#24) ∧
    decode .lsbFirst 0b00000000000000000000001101001110#32 = .ok (.jmp 3#24) ∧
    decode .lsbFirst 0b00000000000000000001010001001111#32 = .ok (.jsp 20#24) ∧
    decode .lsbFirst 0b00000000000000000000010001010000#32 = .ok (.jsn 4#24) ∧
    decode .lsbFirst 0b00000000000000000000000001010001#32 = .ok (.jiz 0#24) ∧
    decode .lsbFirst 0b00000000000000000000110001010010#32 = .ok (.jof 12#24) := by decide

/-- The MSB_FIRST column of 2.1. -/
theorem test_decode_msb_first :
    decode .msbFirst 0x04FFFFFF#32 = .ok (.lda .imm 0xFFFFFF#24) ∧
    decode .msbFirst 0x0AFFFFFF#32 = .ok (.ldb .ind 16777215#24) ∧
    decode .msbFirst 0x0D000064#32 = .ok (.sta .dir 100#24) ∧
    decode .msbFirst 0x11000000#32 = .ok (.stb .dir 0#24) ∧
    decode .msbFirst 0x20FFFFFF#32 = .ok .div ∧
    decode .msbFirst 0x35000005#32 = .ok (.jsb 5#24) ∧
    decode .msbFirst 0x4900000C#32 = .ok (.jof 12#24) ∧
    decode .msbFirst 0xFFFFFFFF#32 = .unknownInstruction := by decide

/-- The rejected words of 2.2, by name. -/
theorem test_decode_rejects :
    decode .lsbFirst 0x000005C1#32 = .invalidInstruction ∧
    decode .lsbFirst 0x00000503#32 = .invalidInstruction ∧
    decode .lsbFirst 0x0000000E#32 = .invalidInstruction ∧
    decode .lsbFirst 0x0000008E#32 = .invalidInstruction ∧
    decode .lsbFirst 0x000000CE#32 = .invalidInstruction ∧
    decode .lsbFirst 0x00000013#32 = .unknownInstruction ∧
    decode .lsbFirst 0x000000FF#32 = .unknownInstruction ∧
    decode .lsbFirst 0xFFFFFFFF#32 = .unknownInstruction := by decide

/-- The encoder's words, from the example column of R106 and 2.1. -/
theorem test_encode :
    encode .lsbFirst (.ldb .ind 16777215#24) = 0xFFFFFF82#32 ∧
    encode .lsbFirst .hlt = 0xFFFFFF0C#32 ∧
    encode .msbFirst (.jiz 0#24) = 0x45000000#32 := by decide

theorem test_decode_table_word :
    decodeTableWord 32 0x00001484 = some (.stb .ind 20#24) ∧
    decodeTableWord 8 0x0C = some .hlt ∧
    decodeTableWord 32 0x00000503 = none := by decide

/-- The table word runs as the first instruction, in either layout. -/
theorem test_with_fetch_word :
    see alu (step (State.reset.withFetchWord 32 0xFFFFFD01)) =
      some ⟨0xFFFFFFFD#32, false, true, false, 1#32⟩ ∧
    see alu (step (({ State.reset with params := otherParams } : State).withFetchWord 32 0xFFFFFD01)) =
      some ⟨0xFFFFFFFD#32, false, true, false, 1#32⟩ := by decide

/-! ### The assembler and the disassembler (2.1) -/

theorem test_encode_text :
    encodeText .lsbFirst "  Lda\t#5  ".toList = .ok 0x00000501#32 ∧
    encodeText .lsbFirst "lda #-8388608".toList = .ok 0x80000001#32 ∧
    encodeText .lsbFirst "sta (7)".toList = .ok 0x00000783#32 ∧
    encodeText .msbFirst "jof 12".toList = .ok 0x4900000C#32 ∧
    encodeText .lsbFirst "lda 007".toList = .ok 0x00000741#32 ∧
    encodeText .lsbFirst "lda #-0".toList = .ok 0x00000001#32 ∧
    encodeText .lsbFirst "rts".toList = .ok 0xFFFFFF09#32 := by decide

theorem test_encode_text_rejects :
    encodeText .lsbFirst "lda #8388608".toList = .invalidInstruction ∧
    encodeText .lsbFirst "lda 16777216".toList = .invalidInstruction ∧
    encodeText .lsbFirst "lda -5".toList = .invalidInstruction ∧
    encodeText .lsbFirst "sta #5".toList = .invalidInstruction ∧
    encodeText .lsbFirst "jmp (3)".toList = .invalidInstruction ∧
    encodeText .lsbFirst "add #1".toList = .invalidInstruction ∧
    encodeText .lsbFirst "lda".toList = .invalidInstruction ∧
    encodeText .lsbFirst "lda #5 x".toList = .invalidInstruction ∧
    encodeText .lsbFirst "lda ( 5 )".toList = .invalidInstruction ∧
    encodeText .lsbFirst "lda #+5".toList = .invalidInstruction ∧
    encodeText .lsbFirst "sta 100;x".toList = .invalidInstruction ∧
    encodeText .lsbFirst "lda#5".toList = .unknownInstruction ∧
    encodeText .lsbFirst "foo #5 garbage".toList = .unknownInstruction ∧
    encodeText .lsbFirst " ".toList = .unknownInstruction := by decide

theorem test_canonical_text :
    canonicalText (.lda .imm 0x800000#24) = "LDA #-8388608".toList ∧
    canonicalText (.lda .ind 100#24) = "LDA (100)".toList ∧
    canonicalText (.sta .dir 16777215#24) = "STA 16777215".toList ∧
    canonicalText .nop = "NOP".toList := by decide

/-! ### Loads and stores (2.3) -/

theorem test_lda_immediate_is_sign_extended :
    see alu (exec (.lda .imm 0x800000#24) { at_ 10#32 [] with z := true, o := true }) =
      some ⟨0xFF800000#32, false, true, false, 11#32⟩ := by decide

theorem test_lda_indirect_pointer_is_unsigned :
    see alu (exec (.lda .ind 20#24) (at_ 10#32 [(20, 0xFFFFFFFF#32), (0xFFFFFFFF, 9#32)])) =
      some ⟨9#32, false, false, false, 11#32⟩ := by decide

theorem test_ldb_keeps_the_flags :
    see (fun t => (t.b, t.z, t.n, t.o)) (exec (.ldb .imm 0xFFFFFD#24) { State.reset with z := true, o := true }) =
      some (0xFFFFFFFD#32, true, false, true) := by decide

theorem test_ldb_indirect :
    see (fun t => (t.b, t.a, t.pc)) (exec (.ldb .ind 20#24) (at_ 10#32 [(20, 30#32), (30, 9#32)])) =
      some (9#32, 0#32, 11#32) := by decide

theorem test_sta_direct :
    see (fun t => (t.mem, t.lwAddr, t.lwDirty, t.pc)) (exec (.sta .dir 100#24) { at_ 10#32 [] with a := 42#32 }) =
      some ([(100, 42#32)], 100#32, true, 11#32) := by decide

/-- `sta (20)` with 20 uninitialized. -/
theorem test_sta_through_an_uninitialized_pointer :
    see (fun t => (t.mem, t.lwAddr)) (exec (.sta .ind 20#24) { at_ 10#32 [] with a := 7#32 }) =
      some ([(0xFFFFFFFF, 7#32)], 0xFFFFFFFF#32) := by decide

theorem test_stb_indirect :
    see (fun t => (t.mem, t.lwAddr))
      (exec (.stb .ind 20#24) { at_ 10#32 [(20, 5#32)] with a := 1#32, b := 0xFFFFFFFD#32 }) =
      some ([(5, 0xFFFFFFFD#32), (20, 5#32)], 5#32) := by decide

/-- With CELL_CAPACITY = |dom M|: a new cell is OutOfMemory, an overwrite is not. -/
theorem test_stb_capacity :
    see (fun t => (t.response, t.pc)) (exec (.stb .dir 100#24) { at_ 0#32 [(7, 1#32)] with params := otherParams }) =
      some (answered .outOfMemory, 0#32) ∧
    see (fun t => (t.response, t.pc)) (exec (.stb .dir 7#24) { at_ 0#32 [(7, 1#32)] with params := otherParams }) =
      some (answered .ok, 1#32) := by decide

/-! ### Arithmetic (2.4) -/

theorem test_add :
    see alu (exec .add (ab 0x7FFFFFFF#32 1#32)) = some ⟨0x80000000#32, false, true, true, 1#32⟩ ∧
    see alu (exec .add (ab 0x80000000#32 0x80000000#32)) = some ⟨0#32, true, false, true, 1#32⟩ ∧
    see alu (exec .add { ab 1#32 2#32 with o := true }) = some ⟨3#32, false, false, false, 1#32⟩ := by decide

/-- O_UPDATE = STICKY and SHADOW_FP = BINARY32. -/
theorem test_add_parameters :
    see alu (exec .add { ab 1#32 2#32 with o := true, params := otherParams }) =
      some ⟨3#32, false, false, true, 1#32⟩ ∧
    see alu (exec .add { ab 16777217#32 1#32 with params := otherParams }) =
      some ⟨16777218#32, false, false, true, 1#32⟩ := by decide

theorem test_sub :
    see alu (exec .sub (ab 5#32 7#32)) = some ⟨0xFFFFFFFE#32, false, true, false, 1#32⟩ ∧
    see alu (exec .sub (ab 0#32 0x80000000#32)) = some ⟨0x80000000#32, false, true, true, 1#32⟩ ∧
    see alu (exec .sub (ab 0xFFFFFFFF#32 0x80000000#32)) = some ⟨0x7FFFFFFF#32, false, false, false, 1#32⟩ := by
  decide

theorem test_mul :
    see alu (exec .mul (ab 46341#32 46341#32)) = some ⟨0x80001219#32, false, true, true, 1#32⟩ ∧
    see alu (exec .mul (ab 0xFFFF0000#32 32768#32)) = some ⟨0x80000000#32, false, true, false, 1#32⟩ ∧
    see alu (exec .mul (ab 8388607#32 8388607#32)) = some ⟨0xFF000001#32, false, true, true, 1#32⟩ := by decide

theorem test_div :
    see alu (exec .div (ab 0xFFFFFFF9#32 2#32)) = some ⟨0xFFFFFFFD#32, false, true, true, 1#32⟩ ∧
    see alu (exec .div (ab 0#32 0xFFFFFFFB#32)) = some ⟨0#32, true, false, false, 1#32⟩ ∧
    see alu (exec .div (ab 0x80000000#32 0xFFFFFFFF#32)) = some ⟨0x80000000#32, false, true, true, 1#32⟩ := by
  decide

theorem test_div_by_zero_and_undefined :
    see (fun t => (t.response, t.a, t.pc)) (exec .div (ab 5#32 0#32)) =
      some (answered .divideByZero, 5#32, 0#32) ∧
    faultOf (exec .div { ab 0x80000000#32 0xFFFFFFFF#32 with params := otherParams }) =
      some .divOverflowUndefined := by decide

/-! ### Input and output (2.5) -/

theorem test_inp :
    see (fun t => (alu t, t.input)) (exec .inp { State.reset with input := [0xFFFFFFFC#32, 8#32], o := true }) =
      some (⟨0xFFFFFFFC#32, false, true, false, 1#32⟩, [8#32]) := by decide

theorem test_inp_waits :
    see (fun t => (t.response, t.pc)) (exec .inp State.reset) = some (none, 0#32) := by decide

theorem test_out :
    see (fun t => (t.outLog, t.pc)) (exec .out { ab 42#32 0#32 with outLog := [7#32] }) =
      some ([7#32, 42#32], 1#32) := by decide

/-- A PATCH of the waiting cell, issued while the INP of an empty port's STEP waits, comes after that STEP
(10_state.md R41, 70_reset_and_hazards.md R331). -/
theorem test_inp_wait_holds_the_port :
    see (fun t => (t.response, t.port)) (step (at_ 0#32 [(0, 0xFFFFFF0A#32)])) = some (none, [.step]) ∧
    see (fun t => (t.a, t.pc, t.port, t.mem))
      (step { at_ 0#32 [(0, 0xFFFFFF0A#32)] with
        port := [.step, .patch 0#32 "hlt".toList], response := none, input := [5#32] }) =
      some (5#32, 1#32, [.patch 0#32 "hlt".toList], [(0, 0xFFFFFF0A#32)]) := by decide

/-! ### Control transfer (2.6), NOP and HLT (2.7) -/

theorem test_jmp : see (fun t => t.pc) (exec (.jmp 3#24) (at_ 9#32 [])) = some 3#32 := by decide

theorem test_jsp :
    see (fun t => t.pc) (exec (.jsp 20#24) { at_ 9#32 [] with o := true }) = some 20#32 ∧
    see (fun t => t.pc) (exec (.jsp 20#24) { at_ 9#32 [] with z := true }) = some 10#32 := by decide

theorem test_jsn :
    see (fun t => t.pc) (exec (.jsn 4#24) { at_ 9#32 [] with n := true }) = some 4#32 ∧
    see (fun t => t.pc) (exec (.jsn 4#24) { at_ 9#32 [] with z := true }) = some 10#32 := by decide

theorem test_jiz :
    see (fun t => t.pc) (exec (.jiz 0#24) { at_ 9#32 [] with z := true }) = some 0#32 ∧
    see (fun t => t.pc) (exec (.jiz 0#24) { at_ 9#32 [] with n := true, o := true }) = some 10#32 := by decide

theorem test_jof :
    see (fun t => t.pc) (exec (.jof 12#24) { at_ 9#32 [] with o := true }) = some 12#32 ∧
    see (fun t => t.pc) (exec (.jof 12#24) { at_ 9#32 [] with n := true, z := true }) = some 10#32 := by decide

theorem test_jsb :
    see (fun t => (t.mem, t.sp, t.pc, t.lwDirty)) (exec (.jsb 5#24) (at_ 9#32 [])) =
      some ([(0xFFFFFFFF, 10#32)], 0xFFFFFFFE#32, 5#32, false) ∧
    see (fun t => (t.mem, t.sp, t.pc)) (exec (.jsb 5#24) { at_ 9#32 [] with sp := 0#32 }) =
      some ([(0, 10#32)], 0xFFFFFFFF#32, 5#32) := by decide

theorem test_jsb_traced :
    see (fun t => (t.lwAddr, t.lwDirty, t.traceSet))
      (exec (.jsb 5#24) { at_ 9#32 [] with stackTrace := true, traceEn := true }) =
      some (0xFFFFFFFF#32, true, [0xFFFFFFFF]) := by decide

theorem test_rts :
    see (fun t => (t.pc, t.sp)) (exec .rts { at_ 9#32 [(0xFFFFFFFF, 3#32)] with sp := 0xFFFFFFFE#32 }) =
      some (3#32, 0xFFFFFFFF#32) ∧
    see (fun t => (t.pc, t.sp)) (exec .rts (at_ 9#32 [(0, 0x301#32)])) = some (769#32, 0#32) := by decide

/-- The popped cell is an Address of ADDR_W = 24 bits (20_memory.md R73). -/
theorem test_rts_narrow_address :
    see (fun t => (t.pc, t.sp))
      (exec .rts { at_ 9#32 [(101, 0xFF000002#32)] with sp := 100#32, params := otherParams }) =
      some (2#32, 101#32) := by decide

theorem test_nop_wraps : see (fun t => t.pc) (exec .nop (at_ 0xFFFFFFFF#32 [])) = some 0#32 := by decide

theorem test_hlt :
    see (fun t => (t.response, t.pc)) (exec .hlt (at_ 7#32 [])) = some (answered .endOfProgram, 7#32) := by decide

/-! ### The engine and the command port (2.8, 2.9) -/

/-- `nop` at 0 with BP = {1} answers Breakpoint; `hlt` at a breakpoint answers EndOfProgram. -/
theorem test_step_breakpoints :
    see (fun t => (t.response, t.pc)) (step { at_ 0#32 [(0, 0xFFFFFF00#32)] with bp := [1] }) =
      some (answered .breakpoint, 1#32) ∧
    see (fun t => (t.response, t.pc)) (step { at_ 7#32 [(7, 0xFFFFFF0C#32)] with bp := [7] }) =
      some (answered .endOfProgram, 7#32) := by decide

/-- From reset with an empty image the first STEP fetches UNINIT (70_reset_and_hazards.md R322). -/
theorem test_step_uninitialized :
    see (fun t => (t.response, t.pc)) (step State.reset) = some (answered .unknownInstruction, 0#32) := by decide

/-- EXEC("jsb 40") at PC = 6. -/
theorem test_exec_keeps_pc :
    see (fun t => (t.mem, t.sp, t.pc))
      (step { at_ 6#32 [] with port := [.exec "jsb 40".toList] }) =
      some ([(0xFFFFFFFF, 7#32)], 0xFFFFFFFE#32, 6#32) := by decide

theorem test_breakpoint_commands :
    see (fun t => t.bp) (step { ask [.bpSet 1#32] with bp := [3] }) = some [1, 3] ∧
    see (fun t => (t.bp, t.response)) (step { ask [.bpDel 4#32] with bp := [1, 3] }) =
      some ([1, 3], answered .notFound) ∧
    see (fun t => t.bp) (step { ask [.bpDel 3#32] with bp := [1, 3] }) = some [1] := by decide

theorem test_patch :
    see (fun t => (t.mem, t.lwAddr, t.response)) (step (ask [.patch 5#32 "hlt".toList])) =
      some ([(5, 0xFFFFFF0C#32)], 5#32, some { status := .ok, result := .change 5#32 0xFFFFFF0C#32 }) := by
  decide

/-- The drain of W10. -/
theorem test_trace_drain :
    see (fun t => (t.traceSet, t.response))
      (step { ask [.traceDrain] with
        traceSet := [10, 30], mem := [(10, 0xFFFFFFFE#32), (30, 0xFFFFFFFE#32)] }) =
      some ([], some { status := .ok, result := .changes [(10, 0xFFFFFFFE#32), (30, 0xFFFFFFFE#32)] }) := by
  decide

theorem test_change_query :
    see (fun t => t.response) (step (ask [.changeQuery])) = some (answered .invalidState) ∧
    see (fun t => (t.lwDirty, t.response))
      (step { ask [.changeQuery] with lwAddr := 8#32, lwDirty := true, mem := [(8, 9#32)] }) =
      some (false, some { status := .ok, result := .change 8#32 9#32 }) := by decide

/-- The image of a line, an empty line and a rejected line (70_reset_and_hazards.md R325, R326). -/
theorem test_program_image :
    programImage Params.default ["lda #3".toList, [], "foo".toList] =
      [(0#32, 0x00000301#32), (1#32, 0xFFFFFF00#32), (2#32, 0xFFFFFF00#32)] := by decide

theorem test_reset_over_capacity :
    faultOf (step { ask [.reset [(0#32, 1#32), (1#32, 2#32)]] with params := otherParams }) =
      some .imageOverCapacity := by decide

/-! ### Witnesses: a state and operands that meet an obligation's hypotheses -/

/-- A state with one cell, in which both capacities are 1. -/
def small : State := { State.reset with params := otherParams, mem := [(7, 1#32)] }

/-- `small` while tracing, its trace set full. -/
def traced : State := { small with traceEn := true, traceSet := [3] }

/-- A consistent state with two cells, a breakpoint and a sound change tracker. -/
def rich : State :=
  { State.reset with
    mem := [(0, 0xFFFFFF00#32), (0xFFFFFFFF, 9#32)], bp := [1, 0xFFFFFFFF], n := true, lwDirty := true
    lwAddr := 0xFFFFFFFF#32, traceSet := [0, 0xFFFFFFFF], traceEn := true }

theorem rich_consistent : Consistent rich :=
  ⟨by decide, by decide, by decide, by decide, by decide, by decide, by decide, nofun, nofun⟩

theorem rich_trackerSound : TrackerSound rich := by
  constructor <;> (unfold initialized; decide)

theorem witness_DecodeOfEncodeIsTheInstruction :
    (Instr.lda .imm 0x800000#24).wellFormed = true ∧ (Instr.stb .ind 0xFFFFFF#24).wellFormed = true ∧
      (Instr.jof 0#24).wellFormed = true ∧ Instr.hlt.wellFormed = true := by decide

theorem witness_DecoderVerdictsByFieldNumbers :
    decode .lsbFirst 0x00000052#32 = .ok (.jof 0#24) ∧ opcField .lsbFirst 0x00000052#32 = 18#6 ∧
      decode .lsbFirst 0x00000053#32 = .unknownInstruction ∧
      decode .lsbFirst 0x000000C1#32 = .invalidInstruction ∧
      decode .lsbFirst 0x00000003#32 = .invalidInstruction ∧
      decode .lsbFirst 0x0000000D#32 = .invalidInstruction := by decide

theorem witness_AcceptedTextRoundTrips :
    parseText "lda #-8388608".toList = .ok .lda (.imm (-8388608)) ∧
      parseText "ldb #8388607".toList = .ok .ldb (.imm 8388607) ∧
      parseText "jmp 16777215".toList = .ok .jmp (.dir 16777215) ∧
      parseText "sta (0)".toList = .ok .sta (.ind 0) ∧ parseText "hlt".toList = .ok .hlt .bare := by decide

theorem witness_CanonicalTextReencodesTheWord :
    (decode .lsbFirst 0x000000C5#32 = .ok .add ∧ modeField .lsbFirst 0x000000C5#32 ≠ 0#2) ∧
      (decode .lsbFirst 0x12345600#32 = .ok .nop ∧ opndField .lsbFirst 0x12345600#32 ≠ 0xFFFFFF#24) ∧
      decode .lsbFirst 0xFFFFFF05#32 = .ok .add ∧ decode .msbFirst 0x06000000#32 = .ok (.lda .ind 0#24) := by
  decide

theorem witness_MemWriteChecksThenStores :
    (∃ t, memWrite small 7#32 5#32 false = some t) ∧ memWrite small 8#32 5#32 true = none ∧
      memWrite traced 7#32 5#32 false = none ∧ (∃ t, memWrite traced 7#32 5#32 true = some t) :=
  ⟨⟨_, rfl⟩, by decide, by decide, ⟨_, rfl⟩⟩

theorem witness_ReadAfterWrite : ∃ t, memWrite rich 0xFFFFFFFF#32 5#32 false = some t := ⟨_, rfl⟩

theorem witness_OverwriteNeedsNoNewCell : initialized small 7 ∧ initialized rich 0xFFFFFFFF := by
  unfold initialized; decide

theorem witness_ObservedWriteIsTracked :
    (∃ t, memWrite rich 0xFFFFFFFF#32 5#32 false = some t) ∧ Consistent rich ∧
      (0xFFFFFFFF#32 : Addr).toNat ∈ rich.traceSet :=
  ⟨⟨_, rfl⟩, rich_consistent, by decide⟩

theorem witness_InitializedAddressesStay :
    (∃ t, step rich = .next t) ∧ (∀ image rest, rich.port ≠ .reset image :: rest) ∧ initialized rich 0xFFFFFFFF :=
  ⟨⟨_, rfl⟩, nofun, by unfold initialized; decide⟩

/-- Direct and indirect, at the ends of the address space, a write that fits and one that does not. -/
theorem witness_StaStoresA :
    (storeAddr rich .dir 0#24 = some 0#32 ∧ writeFits rich 0#32 false) ∧
      (0xFFFFFFFF#32 = toAddr rich.params (memRead rich ((1#24 : Operand).setWidth 32)) ∧
        writeFits rich 0xFFFFFFFF#32 false) ∧
      ((0xFFFFFF#32 : Addr) = (0xFFFFFF#24 : Operand).setWidth 32 ∧ ¬writeFits small 0xFFFFFF#32 false) ∧
      (toAddr small.params (memRead small ((7#24 : Operand).setWidth 32)) = 1#32 ∧
        ¬writeFits small 1#32 false) ∧
      ¬writeFits traced 7#32 false := by
  unfold writeFits initialized; decide

/-- STB has STA's hypotheses: a write that fits and one that does not. -/
theorem witness_StbStoresB :
    ((0#32 : Addr) = (0#24 : Operand).setWidth 32 ∧ writeFits rich 0#32 false) ∧
      ((0xFFFFFF#32 : Addr) = (0xFFFFFF#24 : Operand).setWidth 32 ∧ ¬writeFits small 0xFFFFFF#32 false) := by
  unfold writeFits initialized; decide

theorem witness_StoresChangeOneCell :
    (∃ t, exec (.sta .ind 1#24) rich = .next t ∧ t.response = answered .ok) ∧
      storeAddr rich .ind 1#24 = some 0xFFFFFFFF#32 ∧
      (∃ t, exec (.stb .dir 8#24) small = .next t ∧ t.response ≠ answered .ok) :=
  ⟨⟨_, rfl, by decide⟩, by decide, ⟨_, rfl, by decide⟩⟩

theorem witness_NextFetchSeesTheStore :
    storeAddr rich .dir 1#24 = some 1#32 ∧
      ∃ t, exec (.sta .dir 1#24) rich = .next t ∧ t.response = answered .ok ∧ t.pc = 1#32 :=
  ⟨by decide, _, rfl, by decide, by decide⟩

theorem witness_ArithmeticResults :
    (0x80000000#32 : Word) = BitVec.ofInt 32 ((0x7FFFFFFF#32 : Word).toInt + (1#32 : Word).toInt) ∧
      (0x80000000#32 : Word) = BitVec.ofInt 32 ((0#32 : Word).toInt - (0x80000000#32 : Word).toInt) ∧
      (0#32 : Word) = BitVec.ofInt 32 ((65536#32 : Word).toInt * (65536#32 : Word).toInt) := by decide

/-- The three cases of DIV, and its overflowing quotient under either DIV_OVF. -/
theorem witness_DivResultFlagsAndErrors :
    (ab 5#32 0#32).b.toInt = 0 ∧
      ((ab 0x80000000#32 0xFFFFFFFF#32).a.toInt = -2 ^ 31 ∧ (ab 0x80000000#32 0xFFFFFFFF#32).b.toInt = -1 ∧
        otherParams.divOvf = .undefined ∧ State.reset.params.divOvf = .wrap) ∧
      ((ab 7#32 0xFFFFFFFE#32).b.toInt ≠ 0 ∧ (ab 7#32 0xFFFFFFFE#32).a.toInt ≠ -2 ^ 31) ∧
      (0xFFFFFFFD#32 : Word) =
        BitVec.ofInt 32 ((7#32 : Word).toInt.tdiv (0xFFFFFFFE#32 : Word).toInt) := by decide

theorem witness_ShadowFindsSignedOverflow :
    AluOp.mul ≠ .div ∧ mismatch .binary64 .mul 65536 32768 (aluInt .mul 65536 32768) = true ∧
      mismatch .binary64 .mul (-65536) 32768 (aluInt .mul (-65536) 32768) = false := by decide

theorem witness_ShadowFindsInexactQuotient :
    (2#32 : Word).toInt ≠ 0 ∧ mismatch .binary64 .div 7 2 (aluInt .div 7 2) = true ∧
      mismatch .binary64 .div 6 2 (aluInt .div 6 2) = false := by decide

theorem witness_InpTakesTheNextValue :
    ({ State.reset with input := [0#32] } : State).input = 0#32 :: [] := by decide

/-- On an empty port and on one that holds the waiting STEP. -/
theorem witness_InpWaitsForAValue :
    (at_ 0#32 [(0, 0xFFFFFF0A#32)]).input = [] ∧ (at_ 0#32 [(0, 0xFFFFFF0A#32)]).port = [] ∧
      decode .lsbFirst (memRead (at_ 0#32 [(0, 0xFFFFFF0A#32)]) 0#32) = .ok .inp ∧
      (at_ 0#32 [(0, 0xFFFFFF0A#32)]).params.layout = .lsbFirst ∧
      ({ at_ 0#32 [(0, 0xFFFFFF0A#32)] with port := [.step] } : State).port = [.step] := by decide

theorem witness_JsbPushesTheReturnAddress :
    writeFits rich rich.sp (!rich.stackTrace) ∧ writeFits State.reset State.reset.sp true ∧
      ¬writeFits small small.sp (!small.stackTrace) := by
  unfold writeFits initialized; decide

theorem witness_RtsPopsTheReturnAddress : (0#32 : Addr) = toAddr rich.params (rich.sp + 1#32) := by decide

theorem witness_JsbChangesOneCell :
    (∃ t, exec (.jsb 0xFFFFFF#24) rich = .next t ∧ t.response = answered .ok) ∧ rich.stackTrace = false ∧
      ∃ t, exec (.jsb 0#24) small = .next t ∧ t.response ≠ answered .ok :=
  ⟨⟨_, rfl, by decide⟩, by decide, ⟨_, rfl, by decide⟩⟩

theorem witness_JsbThenRtsReturns :
    rich.sp.toNat < 2 ^ rich.params.addrW ∧
      ∃ t, exec (.jsb 5#24) rich = .next t ∧ t.response = answered .ok ∧
        ∃ u : State, u.params = t.params ∧ u.sp = t.sp ∧ memRead u rich.sp = memRead t rich.sp ∧ u.pc ≠ t.pc :=
  ⟨by decide, _, rfl, by decide, { rich with sp := 0xFFFFFFFE#32, mem := [(0xFFFFFFFF, 1#32)], pc := 7#32 },
    by decide, by decide, by decide, by decide⟩

theorem witness_InstructionsWriteOnlyTheirRow :
    (∃ t, exec (.lda .dir 0xFFFFFF#24) rich = .next t ∧ t.a ≠ rich.a) ∧
      (∃ t, exec (.jsb 0#24) rich = .next t ∧ t.sp ≠ rich.sp ∧ t.mem ≠ rich.mem) ∧
      ∃ t, exec .out rich = .next t ∧ t.outLog ≠ rich.outLog :=
  ⟨⟨_, rfl, by decide⟩, ⟨_, rfl, by decide, by decide⟩, ⟨_, rfl, by decide⟩⟩

theorem witness_OtherInstructionsLeaveMemory :
    Instr.opcode .rts ∉ [Opcode.sta, .stb, .jsb] ∧ ∃ t, exec .rts rich = .next t :=
  ⟨by decide, _, rfl⟩

/-- Two states that differ in all the debug state only. -/
theorem witness_ProgramsCannotObserveDebugState :
    sameProgramView rich { rich with
        bp := [], lwAddr := 0#32, lwDirty := false, traceSet := [], traceEn := false, stackTrace := true } ∧
      rich.params.traceCapacity = none ∧ ∃ t, exec (.jsb 0#24) rich = .next t :=
  ⟨⟨rfl, rfl, rfl, rfl, rfl, rfl, rfl, rfl, rfl, rfl, rfl⟩, by decide, _, rfl⟩

theorem witness_IllFormedTermsAreInvalid :
    (Instr.lda .idx 0#24).wellFormed = false ∧ (Instr.stb .imm 0xFFFFFF#24).wellFormed = false := by decide

/-- A step that arrives at a breakpoint, one that goes on, one that waits, and one that faults. -/
theorem witness_StepRunsTheDecodedInstruction :
    (rich.port = [] ∧ decode rich.params.layout (memRead rich rich.pc) = .ok .nop ∧
        ∃ t, exec .nop rich = .next t ∧ t.response = answered .ok ∧ t.pc.toNat ∈ t.bp) ∧
      (∃ t, exec .nop { rich with bp := [] } = .next t ∧ t.response.isSome = true ∧ t.pc.toNat ∉ t.bp) ∧
      (∃ t, exec .inp (at_ 0#32 [(0, 0xFFFFFF0A#32)]) = .next t ∧ t.response = none) ∧
      exec .div { ab 0x80000000#32 0xFFFFFFFF#32 with params := otherParams } = .fault .divOverflowUndefined :=
  ⟨⟨by decide, by decide, _, rfl, by decide, by decide⟩, ⟨_, rfl, by decide, by decide⟩, ⟨_, rfl, by decide⟩,
    rfl⟩

theorem witness_UndecodableWordChangesNothing :
    State.reset.port = [] ∧
      decode State.reset.params.layout (memRead State.reset State.reset.pc) = .unknownInstruction ∧
      decode (at_ 0#32 [(0, 0x000005C1#32)]).params.layout (memRead (at_ 0#32 [(0, 0x000005C1#32)]) 0#32) =
        .invalidInstruction := by decide

theorem witness_FailingStepChangesNothingAndRepeats :
    State.reset.port = [] ∧ Status.unknownInstruction ≠ .ok ∧ Status.unknownInstruction ≠ .breakpoint ∧
      ∃ t, step State.reset = .next t ∧ t.response = answered .unknownInstruction :=
  ⟨by decide, by decide, by decide, _, rfl, by decide⟩

/-- One step that returns OK, and then an HLT. -/
theorem witness_RunRepeatsStep :
    ∃ t, OkSteps 1 (at_ 0#32 [(0, 0xFFFFFF00#32), (1, 0xFFFFFF0C#32)]) t ∧
      ∃ u, stepCommand t = .next u ∧ u.response.isSome = true ∧ u.response ≠ answered .ok :=
  ⟨_, .succ 0 _ _ _ rfl (by decide) (.zero _), _, rfl, by decide, by decide⟩

theorem witness_DivideByZeroIsRecoverable :
    let s : State := { at_ 0#32 [(0, 0xFFFFFF08#32)] with
      a := 5#32, port := [.step, .exec ['l', 'd', 'b', ' ', '#', '1'], .step] }
    decode s.params.layout (memRead s s.pc) = .ok .div ∧ s.b = 0#32 ∧ s.bp = [] ∧
      s.port = [.step, .exec ['l', 'd', 'b', ' ', '#', '1'], .step] := by decide

theorem witness_StepStopsOnlyWhereSaid :
    rich.params.divOvf = .wrap ∧
      ∀ image rest, rich.port = .reset image :: rest →
        overCapacity rich.params (storeOfImage rich.params image) = false :=
  ⟨by decide, nofun⟩

theorem witness_StepKeepsConsistent : Consistent rich ∧ ∃ t, step rich = .next t ∧ t ≠ rich :=
  ⟨rich_consistent, _, rfl, by decide⟩

theorem witness_StepKeepsTrackerSound : TrackerSound rich ∧ ∃ t, step rich = .next t :=
  ⟨rich_trackerSound, _, rfl⟩

theorem witness_ParametersNeverChange : ∃ t, step { rich with port := [.reset []] } = .next t := ⟨_, rfl⟩

/-- An image at both ends of the address space. -/
theorem witness_ResetLoadsTheImage :
    let image : List (Addr × Word) := [(0xFFFFFFFF#32, 1#32), (0#32, 2#32)]
    ({ rich with port := [.reset image] } : State).port = [.reset image] ∧
      (∀ c ∈ image, c.1.toNat < 2 ^ rich.params.addrW) ∧ (image.map Prod.fst).Nodup ∧
      withinCapacity image.length rich.params.cellCapacity :=
  ⟨by decide, List.forall_mem_cons.mpr ⟨by decide, List.forall_mem_cons.mpr ⟨by decide, nofun⟩⟩, by decide,
    nofun⟩

theorem witness_BreakpointSetAndDelete :
    (0xFFFFFFFF#32 : Addr).toNat < 2 ^ rich.params.addrW ∧ Consistent rich ∧
      (0xFFFFFFFF#32 : Addr).toNat ∈ rich.bp ∧ (0#32 : Addr).toNat ∉ rich.bp ∧
      ({ rich with port := [.bpDel 0#32] } : State).port = [.bpDel 0#32] :=
  ⟨by decide, rich_consistent, by decide, by decide, by decide⟩

/-- A consistent state with a query at the head of the port; the other commands' hypotheses name the
port alone. -/
theorem witness_QueriesAndStackPointerAccess :
    Consistent { rich with port := [.bpList] } ∧ ({ rich with port := [.bpList] } : State).port = [.bpList] ∧
      (ask [.spGet]).port = [.spGet] ∧ (ask [.status]).port = [.status] ∧
      (ask [.spSet 0xFFFFFFFF#32]).port = [.spSet 0xFFFFFFFF#32] ∧
      (0xFFFFFFFF#32 : Addr).toNat < 2 ^ (ask []).params.addrW :=
  ⟨⟨by decide, by decide, by decide, by decide, by decide, by decide, by decide, nofun, nofun⟩,
    by decide, by decide, by decide, by decide, by decide⟩

theorem witness_TracingToggles :
    (ask [.stackTraceSet true]).port = [.stackTraceSet true] ∧ (ask [.traceSet false]).port = [.traceSet false] := by
  decide

theorem witness_PatchWritesOneInstruction :
    (0xFFFFFFFF#32 : Addr).toNat < 2 ^ rich.params.addrW ∧
      (ask [.patch 0xFFFFFFFF#32 "hlt".toList]).port = [.patch 0xFFFFFFFF#32 "hlt".toList] ∧
      (encodeText .lsbFirst "hlt".toList = .ok 0xFFFFFF0C#32 ∧
        encodeText .lsbFirst "foo".toList = .unknownInstruction ∧
        encodeText .lsbFirst "sta #1".toList = .invalidInstruction) ∧
      writeFits rich 0xFFFFFFFF#32 false ∧ ¬writeFits small 0#32 false :=
  ⟨by decide, by decide, by decide, by unfold writeFits initialized; decide, by unfold writeFits initialized; decide⟩

/-- The port of an EXEC, a text each verdict answers, and an execute that completes. -/
theorem witness_ExecRestoresOnlyPc :
    (ask [.exec "rts".toList]).port = [.exec "rts".toList] ∧
      encodeText .lsbFirst "rts".toList = .ok 0xFFFFFF09#32 ∧
      encodeText .lsbFirst "foo".toList = .unknownInstruction ∧
      encodeText .lsbFirst "rts 5".toList = .invalidInstruction ∧
      ∃ t, exec .rts (ask [.exec "rts".toList]) = .next t ∧ t.response.isSome = true :=
  ⟨by decide, by decide, by decide, by decide, _, rfl, by decide⟩

theorem witness_CodecCommandsAnswerForTheirArgument :
    (ask [.encode "hlt".toList]).port = [.encode "hlt".toList] ∧ (ask [.decode 0#32]).port = [.decode 0#32] := by
  decide

theorem witness_ChangeQueryReportsOnce :
    (({ rich with port := [.changeQuery] } : State).port = [.changeQuery] ∧ rich.lwDirty = true) ∧
      ((ask [.changeQuery]).port = [.changeQuery] ∧ (ask [.changeQuery]).lwDirty = false) := by decide

theorem witness_TraceDrainIsAscendingAndCurrent :
    ({ rich with port := [.traceDrain] } : State).port = [.traceDrain] ∧
      Consistent { rich with port := [.traceDrain] } :=
  ⟨by decide, ⟨by decide, by decide, by decide, by decide, by decide, by decide, by decide, nofun, nofun⟩⟩

theorem witness_ImagePlacesEachLine :
    (["lda #3".toList, [], "foo".toList] : List Text)[0]? = some "lda #3".toList ∧
      (["lda #3".toList, [], "foo".toList] : List Text)[2]? = some "foo".toList := by decide

end Sys2Proof.Tests
end

section
/-! PROOF. What each instruction may write (10_state.md R23, R27), settling O36. The writes that the table of
R23 allows an opcode are a relation between two states, `WritesOnlyRow`. Each named update of State keeps it
when the opcode's row allows that update, so each meaning keeps it as the composition of its updates. -/

namespace Sys2Proof.Machine

/-! ### The relation -/

/-- The opcodes whose row of R23 lists A, Z, N and O. -/
abbrev accumulatorWriters : List Opcode := [.lda, .add, .sub, .mul, .div, .inp]

/-- The opcodes whose row of R23 lists memory and the change tracker. -/
abbrev memoryWriters : List Opcode := [.sta, .stb, .jsb]

/-- From `s` to `t` only what the row of `op` in R23 lists has changed; the response is left out. -/
structure WritesOnlyRow (op : Opcode) (s t : State) : Prop where
  a : t.a ≠ s.a → op ∈ accumulatorWriters
  b : t.b ≠ s.b → op = .ldb
  flags : t.z ≠ s.z ∨ t.n ≠ s.n ∨ t.o ≠ s.o → op ∈ accumulatorWriters
  sp : t.sp ≠ s.sp → op ∈ [.rts, .jsb]
  pc : t.pc ≠ s.pc → op ≠ .hlt
  mem : t.mem ≠ s.mem → op ∈ memoryWriters
  tracker : t.lwAddr ≠ s.lwAddr ∨ t.lwDirty ≠ s.lwDirty ∨ t.traceSet ≠ s.traceSet → op ∈ memoryWriters
  outLog : t.outLog ≠ s.outLog → op = .out
  input : t.input ≠ s.input → op = .inp
  params : t.params = s.params
  bp : t.bp = s.bp
  traceEn : t.traceEn = s.traceEn
  stackTrace : t.stackTrace = s.stackTrace
  port : t.port = s.port

namespace WritesOnlyRow

variable {op : Opcode} {s t u : State}

theorem refl (op : Opcode) (s : State) : WritesOnlyRow op s s := by
  constructor <;> simp

/-! ### The updates that keep it -/

theorem setResponse (h : WritesOnlyRow op s u) (r : Option Response) :
    WritesOnlyRow op s { u with response := r } := { h with }

theorem setPc (h : WritesOnlyRow op s u) (hop : op ≠ .hlt) (pc : Addr) :
    WritesOnlyRow op s { u with pc := pc } := { h with pc := fun _ => hop }

theorem advance (h : WritesOnlyRow op s u) (hop : op ≠ .hlt) : WritesOnlyRow op s u.advance :=
  h.setPc hop _

/-- SP and PC are written together, by the same opcodes (R29). -/
theorem setSpPc (h : WritesOnlyRow op s u) (hop : op ∈ [.rts, .jsb]) (hpc : op ≠ .hlt) (sp pc : Addr) :
    WritesOnlyRow op s { u with sp := sp, pc := pc } :=
  { h with sp := fun _ => hop, pc := fun _ => hpc }

theorem setB (h : WritesOnlyRow op s u) (hop : op = .ldb) (v : Word) :
    WritesOnlyRow op s { u with b := v } := { h with b := fun _ => hop }

theorem setOutLog (h : WritesOnlyRow op s u) (hop : op = .out) (vs : List Word) :
    WritesOnlyRow op s { u with outLog := vs } := { h with outLog := fun _ => hop }

theorem setInput (h : WritesOnlyRow op s u) (hop : op = .inp) (vs : List Word) :
    WritesOnlyRow op s { u with input := vs } := { h with input := fun _ => hop }

/-- A and the flags are written together, by the same opcodes (R24 to R26). -/
theorem setAccumulator (h : WritesOnlyRow op s u) (hop : op ∈ accumulatorWriters) (v : Word) (o : Bool) :
    WritesOnlyRow op s { (({ u with a := v }).setZN v) with o := o } :=
  { h with a := fun _ => hop, flags := fun _ => hop }

theorem setArith (h : WritesOnlyRow op s u) (hop : op ∈ accumulatorWriters) (hpc : op ≠ .hlt) (f : AluOp) :
    WritesOnlyRow op s (arith f u) := (h.setAccumulator hop _ _).advance hpc

/-- MemWrite commits a cell and, unless suppressed, the change tracker (20_memory.md R64, R66). -/
theorem of_memWrite (hop : op ∈ memoryWriters) {addr : Addr} {v : Word} {suppress : Bool}
    (hw : memWrite s addr v suppress = some u) : WritesOnlyRow op s u := by
  obtain ⟨-, rfl⟩ := memWrite_cases s u addr v suppress hw
  exact { refl op s with mem := fun _ => hop, tracker := fun _ => hop }

/-! ### The ways a meaning answers -/

theorem of_complete (hu : WritesOnlyRow op s u) (h : complete u = .next t) : WritesOnlyRow op s t := by
  obtain rfl := (complete_eq_next u t).mp h
  exact hu.setResponse _

theorem of_raise {e : Status} (h : raise e s = .next t) : WritesOnlyRow op s t := by
  obtain rfl := (raise_eq_next e s t).mp h
  exact (refl op s).setResponse _

theorem of_commitWrite (hop : op ∈ memoryWriters) {addr : Addr} {v : Word} {suppress : Bool}
    {rest : State → State} (hrest : ∀ u, WritesOnlyRow op s u → WritesOnlyRow op s (rest u))
    (h : commitWrite s addr v suppress rest = .next t) : WritesOnlyRow op s t := by
  obtain ⟨-, rfl⟩ | ⟨u, hu, rfl⟩ := commitWrite_cases s t addr v suppress rest h
  · exact (refl op s).setResponse _
  · exact (hrest u (of_memWrite hop hu)).setResponse _

theorem of_jumpIf (hop : op ≠ .hlt) {c : Bool} {x : Operand} (h : jumpIf c x s = .next t) :
    WritesOnlyRow op s t := by
  obtain ⟨-, rfl⟩ | ⟨-, rfl⟩ := jumpIf_cases c x s t h
  · exact ((refl op s).setPc hop _).setResponse _
  · exact ((refl op s).advance hop).setResponse _

end WritesOnlyRow

/-! ### The meanings that have more than one answer or write SP -/

open WritesOnlyRow

variable {s t : State} {m : Mode} {x : Operand}

theorem execLda_writesOnlyRow (h : execLda m x s = .next t) : WritesOnlyRow .lda s t := by
  obtain ⟨-, rfl⟩ | ⟨v, -, rfl⟩ := execLda_cases m x s t h
  · exact (refl _ s).setResponse _
  · exact (((refl _ s).setAccumulator (by decide) v false).advance (by decide)).setResponse _

theorem execLdb_writesOnlyRow (h : execLdb m x s = .next t) : WritesOnlyRow .ldb s t := by
  obtain ⟨-, rfl⟩ | ⟨v, -, rfl⟩ := execLdb_cases m x s t h
  · exact (refl _ s).setResponse _
  · exact (((refl _ s).setB rfl v).advance (by decide)).setResponse _

theorem execSta_writesOnlyRow (h : execSta m x s = .next t) : WritesOnlyRow .sta s t := by
  obtain ⟨-, rfl⟩ | ⟨ea, -, hw⟩ := execSta_cases m x s t h
  · exact (refl _ s).setResponse _
  · exact of_commitWrite (by decide) (fun u hu => hu.advance (by decide)) hw

theorem execStb_writesOnlyRow (h : execStb m x s = .next t) : WritesOnlyRow .stb s t := by
  obtain ⟨-, rfl⟩ | ⟨ea, -, hw⟩ := execStb_cases m x s t h
  · exact (refl _ s).setResponse _
  · exact of_commitWrite (by decide) (fun u hu => hu.advance (by decide)) hw

theorem execDiv_writesOnlyRow (h : execDiv s = .next t) : WritesOnlyRow .div s t := by
  obtain ⟨-, rfl⟩ | ⟨-, rfl⟩ := execDiv_cases s t h
  · exact (refl _ s).setResponse _
  · exact ((refl _ s).setArith (by decide) (by decide) .div).setResponse _

theorem execInp_writesOnlyRow (h : execInp s = .next t) : WritesOnlyRow .inp s t := by
  obtain ⟨-, rfl⟩ | ⟨v, rest, -, rfl⟩ := execInp_cases s t h
  · exact (refl _ s).setResponse none
  · have hread := ((refl .inp s).setInput rfl rest).setAccumulator (by decide) v false
    exact (hread.advance (by decide)).setResponse _

theorem execJsb_writesOnlyRow (h : execJsb x s = .next t) : WritesOnlyRow .jsb s t :=
  of_commitWrite (by decide) (fun _ hu => hu.setSpPc (by decide) (by decide) _ _) h

theorem execRts_writesOnlyRow (h : execRts s = .next t) : WritesOnlyRow .rts s t :=
  ((refl .rts s).setSpPc (by decide) (by decide) _ _).of_complete h

/-! ### All instructions -/

/-- An instruction that answers a next state writes only what its row of R23 lists. -/
theorem exec_writesOnlyRow (i : Instr) (s t : State) (h : exec i s = .next t) :
    WritesOnlyRow i.opcode s t := by
  cases i with
  | nop => exact ((refl .nop s).advance (by decide)).of_complete h
  | lda m x => exact execLda_writesOnlyRow h
  | ldb m x => exact execLdb_writesOnlyRow h
  | sta m x => exact execSta_writesOnlyRow h
  | stb m x => exact execStb_writesOnlyRow h
  | add => exact ((refl .add s).setArith (by decide) (by decide) .add).of_complete h
  | sub => exact ((refl .sub s).setArith (by decide) (by decide) .sub).of_complete h
  | mul => exact ((refl .mul s).setArith (by decide) (by decide) .mul).of_complete h
  | div => exact execDiv_writesOnlyRow h
  | rts => exact execRts_writesOnlyRow h
  | inp => exact execInp_writesOnlyRow h
  | out => exact (((refl .out s).setOutLog rfl (s.outLog ++ [s.a])).advance (by decide)).of_complete h
  | hlt => exact of_raise (op := .hlt) (e := .endOfProgram) h
  | jsb x => exact execJsb_writesOnlyRow h
  | jmp x => exact of_jumpIf (op := .jmp) (by decide) h
  | jsp x => exact of_jumpIf (op := .jsp) (by decide) h
  | jsn x => exact of_jumpIf (op := .jsn) (by decide) h
  | jiz x => exact of_jumpIf (op := .jiz) (by decide) h
  | jof x => exact of_jumpIf (op := .jof) (by decide) h

/-- Settles O36: the fields of `WritesOnlyRow`, which every instruction keeps. -/
theorem instructionsWriteOnlyTheirRow : Obligations.InstructionsWriteOnlyTheirRow := by
  intro i s t h
  obtain ⟨ha, hb, hflags, hsp, hpc, hmem, htracker, hout, hin, hparams, hbp, htraceEn, hstack, hport⟩ :=
    exec_writesOnlyRow i s t h
  exact ⟨ha, hb, hflags, hsp, hpc, hmem, htracker, hout, hin, hparams, hbp, htraceEn, hstack, hport⟩

end Sys2Proof.Machine
end

section
/-! PROOF. What MemWrite does (20_memory.md R64, R65), settling O7 and O9. The two capacity checks of the
model are read as propositions; the failure conditions of MemWrite are their disjunction. -/

namespace Sys2Proof.Machine

/-! ### The two capacity checks -/

/-- An unbounded capacity is never reached (R64). -/
theorem atCapacity_iff (count : Nat) (capacity : Option Nat) :
    atCapacity count capacity = true ↔ capacity = some count := beq_iff_eq

theorem isNone_storeGet_iff (s : State) (k : Nat) :
    (storeGet s.mem k).isNone = true ↔ ¬initialized s k := by
  unfold initialized
  cases storeGet s.mem k <;> simp

/-- A write fails for want of a cell, or for want of a trace entry (R64). -/
theorem writeFails_iff (s : State) (ea : Addr) (suppress : Bool) :
    writeFails s ea suppress = true ↔
      (¬initialized s ea.toNat ∧ s.params.cellCapacity = some s.mem.length) ∨
      (suppress = false ∧ s.traceEn = true ∧ ea.toNat ∉ s.traceSet ∧
        s.params.traceCapacity = some s.traceSet.length) := by
  simp [writeFails, atCapacity_iff, ← isNone_storeGet_iff, and_assoc]

/-! ### The write -/

/-- A write that succeeds stores the cell and, unless suppressed, tells the change tracker (R64, R66). -/
theorem eq_afterWrite_of_memWrite {s t : State} {ea : Addr} {v : Word} {suppress : Bool}
    (h : memWrite s ea v suppress = some t) : t = afterWrite s ea v suppress := by
  obtain ⟨-, rfl⟩ := memWrite_cases s t ea v suppress h
  cases suppress with
  | true => rfl
  | false => rfl

/-- Settles O7: MemWrite fails with `writeFails`, which is the disjunction of the two checks. -/
theorem memWriteChecksThenStores : Obligations.MemWriteChecksThenStores := fun s ea v suppress =>
  ⟨(memWrite_eq_none s ea v suppress).trans (writeFails_iff s ea suppress),
    fun _ => eq_afterWrite_of_memWrite⟩

/-- Settles O9: at an initialized address the first of the two checks of O7 cannot fail. -/
theorem overwriteNeedsNoNewCell : Obligations.OverwriteNeedsNoNewCell := by
  intro s ea v suppress hinit
  obtain ⟨hfails, -⟩ := memWriteChecksThenStores s ea v suppress
  exact hfails.trans (or_iff_right fun ⟨hnot, _⟩ => hnot hinit)

end Sys2Proof.Machine
end

section
/-! PROOF. The codec on words (30_encoding.md R103, R104, R108, R109), settling O1 and O3. Every word is the pack
of its three fields, so the decoder's verdict on a word is its verdict on a packed opcode, mode and operand. -/

namespace Sys2Proof

open Laws

/-! ### Fields -/

/-- Packing the fields of a word gives the word back (R104). -/
theorem pack_fields (l : Layout) (w : Word) :
    pack l (opcField l w) (modeField l w) (opndField l w) = w := by
  apply BitVec.eq_of_getLsbD_eq
  intro j hj
  cases l with
  | lsbFirst => simp only [pack, opcField, modeField, opndField, BitVec.getLsbD_append,
      BitVec.getLsbD_extractLsb']; grind
  | msbFirst => simp only [pack, opcField, modeField, opndField, BitVec.getLsbD_append,
      BitVec.getLsbD_extractLsb']; grind

/-- Settles O1. -/
theorem packInvertsFieldExtraction : Obligations.PackInvertsFieldExtraction :=
  ⟨fun _ => ⟨rfl, rfl, rfl, rfl, rfl, rfl⟩, fun _ _ _ => ⟨rfl, rfl⟩, pack_fields,
    fun l o m x => ⟨opcField_pack l o m x, modeField_pack l o m x, opndField_pack l o m x⟩⟩

/-! ### The tables of opcodes and modes -/

/-- No two rows of OPCODES have one number (R106). -/
theorem number_of_ofNumber {o : BitVec 6} {op : Opcode} (h : Opcode.ofNumber o = some op) :
    op.number = o := by
  obtain ⟨ho, -⟩ := List.getElem?_eq_some_iff.mp h
  have hsame : opcodeTable[o.toNat]? = opcodeTable[op.number.toNat]? := h.trans (ofNumber_number op).symm
  exact (BitVec.eq_of_toNat_eq ((List.getElem?_inj ho (by decide)).mp hsame)).symm

/-- The unassigned opcode numbers are 19 to 63 (R106, R109). -/
theorem ofNumber_eq_none_iff (o : BitVec 6) : Opcode.ofNumber o = none ↔ 19 ≤ o.toNat :=
  List.getElem?_eq_none_iff

theorem number_lt (op : Opcode) : op.number.toNat < 19 := by
  cases op <;> decide

theorem bits_ofBits (b : BitVec 2) : (Mode.ofBits b).bits = b := by
  revert b; decide

/-- The opcode numbers of each class (R106). -/
theorem number_mem_load_iff (op : Opcode) : op.number.toNat ∈ [1, 2] ↔ op.cls = .load := by
  cases op <;> decide

theorem number_mem_store_iff (op : Opcode) : op.number.toNat ∈ [3, 4] ↔ op.cls = .store := by
  cases op <;> decide

theorem number_mem_jump_iff (op : Opcode) :
    op.number.toNat ∈ [13, 14, 15, 16, 17, 18] ↔ op.cls = .jump := by
  cases op <;> decide

/-- The modes a class does not permit, by their numbers (R107). -/
theorem permits_eq_false_iff (op : Opcode) (m : Mode) :
    op.permits m = false ↔ (op.cls = .load ∧ m.bits.toNat = 3) ∨
      (op.cls = .store ∧ m.bits.toNat ∈ [0, 3]) ∨ (op.cls = .jump ∧ m.bits.toNat ∈ [0, 2, 3]) := by
  unfold Opcode.permits
  cases op.cls with
  | none => simp
  | load => cases m <;> decide
  | store => cases m <;> decide
  | jump => cases m <;> decide

/-! ### Instructions by opcode, mode and operand -/

@[simp] theorem opcode_build (op : Opcode) (m : Mode) (x : Operand) : (Instr.build op m x).opcode = op := by
  cases op <;> rfl

/-- An instruction is determined by its opcode and the fields it is encoded with. -/
theorem build_self (i : Instr) : Instr.build i.opcode i.mode i.operand = i := by
  cases i <;> rfl

/-- Outside the class NONE, an instruction keeps the permitted mode and the operand it was built from
(R107, R108). -/
theorem build_mode_operand {op : Opcode} {m : Mode} (x : Operand) (hcls : op.cls ≠ .none)
    (h : op.permits m = true) : (Instr.build op m x).mode = m ∧ (Instr.build op m x).operand = x := by
  cases op with
  | lda | ldb | sta | stb => exact ⟨rfl, rfl⟩
  | jsb | jmp | jsp | jsn | jiz | jof => exact ⟨(eq_of_beq h).symm, rfl⟩
  | _ => exact absurd rfl hcls

theorem wellFormed_build {op : Opcode} {m : Mode} (x : Operand) (h : op.permits m = true) :
    (Instr.build op m x).wellFormed = true := by
  cases op with
  | lda | ldb | sta | stb => exact h
  | _ => rfl

/-- What is well formed, class by class (R107, R114). -/
theorem wellFormed_cases (i : Instr) (h : i.wellFormed = true) :
    (i.opcode.cls = .none ∧ i.mode = .imm ∧ i.operand = noOperand) ∨
      (i.opcode.cls = .load ∧ loadModePermitted i.mode = true) ∨
      (i.opcode.cls = .store ∧ storeModePermitted i.mode = true) ∨
      (i.opcode.cls = .jump ∧ i.mode = .dir) := by
  cases i with
  | lda | ldb => exact .inr (.inl ⟨rfl, h⟩)
  | sta | stb => exact .inr (.inr (.inl ⟨rfl, h⟩))
  | jsb | jmp | jsp | jsn | jiz | jof => exact .inr (.inr (.inr ⟨rfl, rfl⟩))
  | _ => exact .inl ⟨rfl, rfl, rfl⟩

/-! ### Verdicts -/

/-- The verdict of a packed word of an assigned opcode (R108). -/
theorem decode_pack (l : Layout) (op : Opcode) (m : Mode) (x : Operand) :
    decode l (pack l op.number m.bits x) =
      if op.permits m then .ok (Instr.build op m x) else .invalidInstruction := by
  simp only [decode, opcField_pack, modeField_pack, opndField_pack, ofNumber_number, mode_ofBits_bits]

/-- Every word is of an unassigned opcode, or the pack of an assigned opcode, a mode and an operand. -/
theorem word_cases (l : Layout) (w : Word) :
    (19 ≤ (opcField l w).toNat ∧ decode l w = .unknownInstruction) ∨
      ∃ op m x, w = pack l (Opcode.number op) (Mode.bits m) x := by
  cases hop : Opcode.ofNumber (opcField l w) with
  | none => exact .inl ⟨(ofNumber_eq_none_iff _).mp hop, by simp only [decode, hop]⟩
  | some op =>
    refine .inr ⟨op, Mode.ofBits (modeField l w), opndField l w, ?_⟩
    rw [number_of_ofNumber hop, bits_ofBits, pack_fields]

/-- The words that decode to an instruction (R108). -/
theorem eq_pack_of_decode_ok {l : Layout} {w : Word} {i : Instr} (h : decode l w = .ok i) :
    ∃ op m x, w = pack l (Opcode.number op) (Mode.bits m) x ∧ op.permits m = true ∧
      i = Instr.build op m x := by
  obtain ⟨-, hunknown⟩ | ⟨op, m, x, rfl⟩ := word_cases l w
  · simp [hunknown] at h
  · rw [decode_pack] at h
    cases hp : op.permits m with
    | true => simp only [hp, if_true, Verdict.ok.injEq] at h; exact ⟨op, m, x, rfl, hp, h.symm⟩
    | false => simp [hp] at h

/-- Settles O3, an unassigned opcode apart from the pack of an assigned one. -/
theorem decoderVerdictsByFieldNumbers : Obligations.DecoderVerdictsByFieldNumbers := by
  intro l w
  refine ⟨?_, ?_, fun i hi => ?_⟩
  · obtain ⟨hopc, hunknown⟩ | ⟨op, m, x, rfl⟩ := word_cases l w
    · exact iff_of_true hunknown hopc
    · have hlt := number_lt op
      rw [decode_pack, opcField_pack]
      exact iff_of_false (by cases op.permits m <;> nofun) (by omega)
  · obtain ⟨hopc, hunknown⟩ | ⟨op, m, x, rfl⟩ := word_cases l w
    · simp only [hunknown, reduceCtorEq, List.mem_cons, List.not_mem_nil, or_false, false_iff]
      omega
    · rw [opcField_pack, modeField_pack, number_mem_load_iff, number_mem_store_iff, number_mem_jump_iff,
        ← permits_eq_false_iff, decode_pack]
      cases op.permits m <;> simp
  · obtain ⟨op, m, x, rfl, hp, rfl⟩ := eq_pack_of_decode_ok hi
    rw [opcField_pack, modeField_pack, opndField_pack, opcode_build]
    refine ⟨wellFormed_build x hp, rfl, fun hcls => ?_⟩
    obtain ⟨hmode, hoperand⟩ := build_mode_operand x hcls hp
    exact ⟨congrArg Mode.bits hmode, hoperand⟩

end Sys2Proof
end

section
/-! PROOF. The assembler reads the disassembler's text (30_encoding.md R115 to R128), settling O4 and O5. The digits
of a number are read back as that number, so the canonical text of a well-formed instruction parses to its
opcode and its form, `canonicalForm`; encoding that form gives the canonical word. -/

namespace Sys2Proof.Machine

open Laws

/-! ### Decimal numbers (R115, R124) -/

theorem digitValue_digitChar {d : Nat} (h : d < 10) : digitValue (digitChar d) = some d := by
  revert d; decide

theorem parseDigits_digitChar {d : Nat} (h : d < 10) (acc : Nat) (t : Text) :
    parseDigits acc (digitChar d :: t) = parseDigits (10 * acc + d) t := by
  simp only [parseDigits, digitValue_digitChar h]

/-- Reading a number's digits and then `t` is reading `t` on from the number. -/
theorem parseDigits_decimalFrom (fuel n : Nat) (t : Text) (h : n < fuel) :
    parseDigits 0 (decimalFrom fuel n t) = parseDigits n t := by
  induction fuel generalizing n t with
  | zero => omega
  | succ fuel ih =>
    have hdigit : n % 10 < 10 := Nat.mod_lt n (by decide)
    unfold decimalFrom
    split
    next hlast =>
      rw [parseDigits_digitChar hdigit]
      congr 1; omega
    next hmore =>
      rw [ih _ _ (by omega), parseDigits_digitChar hdigit, Nat.div_add_mod]

theorem decimalFrom_ne_nil (fuel n : Nat) {t : Text} (h : t ≠ []) : decimalFrom fuel n t ≠ [] := by
  induction fuel generalizing n t with
  | zero => exact h
  | succ fuel ih =>
    unfold decimalFrom
    split
    · exact List.cons_ne_nil _ _
    · exact ih _ (List.cons_ne_nil _ _)

theorem decimal_ne_nil (n : Nat) : decimal n ≠ [] := by
  unfold decimal decimalFrom
  split
  · exact List.cons_ne_nil _ _
  · exact decimalFrom_ne_nil _ _ (List.cons_ne_nil _ _)

theorem parseNat_of_ne_nil {t : Text} (h : t ≠ []) : parseNat t = parseDigits 0 t := by
  cases t with
  | nil => exact absurd rfl h
  | cons c cs => rfl

/-- The assembler reads a number in decimal as that number. -/
theorem parseNat_decimal (n : Nat) : parseNat (decimal n) = some n := by
  rw [parseNat_of_ne_nil (decimal_ne_nil n), decimal, parseDigits_decimalFrom _ _ _ (Nat.lt_succ_self n)]
  rfl

/-! ### The characters of a number -/

theorem digits_of_parseDigits {acc n : Nat} {t : Text} (h : parseDigits acc t = some n) :
    ∀ c ∈ t, (digitValue c).isSome = true := by
  induction t generalizing acc with
  | nil => simp
  | cons c cs ih =>
    unfold parseDigits at h
    cases hc : digitValue c with
    | none => simp [hc] at h
    | some d =>
      simp only [hc] at h
      simpa [hc] using ih h

/-- A number in decimal holds digits and nothing else. -/
theorem digits_decimal (n : Nat) : ∀ c ∈ decimal n, (digitValue c).isSome = true :=
  digits_of_parseDigits ((parseNat_of_ne_nil (decimal_ne_nil n)).symm.trans (parseNat_decimal n))

/-- A digit is none of the other characters of the grammar. -/
theorem ne_of_digit {c c' : Char} (h : (digitValue c).isSome = true) (h' : digitValue c' = none) :
    c ≠ c' := by
  rintro rfl
  simp [h'] at h

theorem isToken_of_digit {c : Char} (h : (digitValue c).isSome = true) : isToken c = true := by
  have hspace : c ≠ ' ' := ne_of_digit h (by decide)
  have htab : c ≠ '\t' := ne_of_digit h (by decide)
  simp [isToken, isWs, hspace, htab]

theorem tokens_decimal (n : Nat) : ∀ c ∈ decimal n, isToken c = true :=
  fun c hc => isToken_of_digit (digits_decimal n c hc)

/-- A number in decimal begins with a digit. -/
theorem decimal_eq_cons (n : Nat) : ∃ c cs, decimal n = c :: cs ∧ (digitValue c).isSome = true := by
  obtain ⟨c, cs, hcons⟩ := List.exists_cons_of_ne_nil (decimal_ne_nil n)
  exact ⟨c, cs, hcons, digits_decimal n c (by simp [hcons])⟩

/-! ### Operands -/

/-- The assembler reads a signed number in decimal as that number. -/
theorem parseInt_signedDecimal (n : Int) : parseInt (signedDecimal n) = some n := by
  unfold signedDecimal
  split
  next hneg =>
    simp only [parseInt, if_true, parseNat_decimal, Option.map_some, Option.some.injEq]
    omega
  next hnonneg =>
    obtain ⟨c, cs, hcons, hdigit⟩ := decimal_eq_cons n.natAbs
    have hminus : c ≠ '-' := ne_of_digit hdigit (by decide)
    have hnat := parseNat_decimal n.natAbs
    rw [hcons] at hnat ⊢
    simp only [parseInt, if_neg hminus, hnat, Option.map_some, Option.some.injEq]
    omega

theorem tokens_signedDecimal (n : Int) : ∀ c ∈ signedDecimal n, isToken c = true := by
  unfold signedDecimal
  split
  · exact List.forall_mem_cons.mpr ⟨by decide, tokens_decimal _⟩
  · exact tokens_decimal _

/-- The form an operand's canonical text denotes. No text denotes the indexed mode (R105). -/
def operandForm (m : Mode) (x : Operand) : Form :=
  match m with
  | .imm => .imm x.toInt
  | .dir => .dir x.toNat
  | .ind => .ind x.toNat
  | .idx => .bare

theorem sext32_toInt (x : Operand) : (sext32 x).toInt = x.toInt :=
  BitVec.toInt_signExtend_of_le (by decide)

/-- The assembler reads the operand of the canonical text as the form it denotes. -/
theorem parseOperand_operandText {m : Mode} (x : Operand) (hm : m ≠ .idx) :
    parseOperand (operandText m x) = some (operandForm m x) := by
  cases m with
  | imm => simp [parseOperand, operandText, operandForm, parseInt_signedDecimal, sext32_toInt]
  | dir =>
    obtain ⟨c, cs, hcons, hdigit⟩ := decimal_eq_cons x.toNat
    have hhash : c ≠ '#' := ne_of_digit hdigit (by decide)
    have hparen : c ≠ '(' := ne_of_digit hdigit (by decide)
    have hnat := parseNat_decimal x.toNat
    rw [hcons] at hnat
    simp [parseOperand, operandText, operandForm, zext32_toNat, hcons, hhash, hparen, hnat]
  | ind => simp [parseOperand, operandText, operandForm, parseClosed, zext32_toNat, parseNat_decimal]
  | idx => exact absurd rfl hm

theorem operandText_ne_nil {m : Mode} (x : Operand) (hm : m ≠ .idx) : operandText m x ≠ [] := by
  intro hnil
  have hparse := parseOperand_operandText x hm
  rw [hnil] at hparse
  cases hparse

theorem tokens_operandText (m : Mode) (x : Operand) : ∀ c ∈ operandText m x, isToken c = true := by
  cases m with
  | imm => exact List.forall_mem_cons.mpr ⟨by decide, tokens_signedDecimal _⟩
  | dir => exact tokens_decimal _
  | ind =>
    exact List.forall_mem_append.mpr ⟨List.forall_mem_cons.mpr ⟨by decide, tokens_decimal _⟩,
      List.forall_mem_singleton.mpr (by decide)⟩
  | idx => exact List.forall_mem_nil _

/-! ### Tokens (R115 to R117) -/

theorem dropWhile_isWs_of_tokens {t : Text} (h : ∀ c ∈ t, isToken c = true) : t.dropWhile isWs = t := by
  cases t with
  | nil => rfl
  | cons c cs =>
    obtain ⟨hc, -⟩ := List.forall_mem_cons.mp h
    exact List.dropWhile_cons_of_neg (by simpa [isToken] using hc)

theorem parseForm_space_cons {t : Text} (hne : t ≠ []) (h : ∀ c ∈ t, isToken c = true) :
    parseForm (' ' :: t) = parseOperand t := by
  have hskip : (' ' :: t).dropWhile isWs = t := dropWhile_isWs_of_tokens h
  obtain ⟨c, cs, rfl⟩ := List.exists_cons_of_ne_nil hne
  have htake : (c :: cs).takeWhile isToken = c :: cs := List.takeWhile_eq_self_iff.mpr h
  have hdrop : (c :: cs).dropWhile isToken = [] := List.dropWhile_eq_nil_iff.mpr h
  unfold parseForm
  simp only [hskip, htake, hdrop, List.all_nil, if_true]

theorem tokens_mnemonic (op : Opcode) : ∀ c ∈ op.mnemonic, isToken c = true :=
  List.all_eq_true.mp (by cases op <;> decide)

/-- The mnemonics are in upper case and tell the opcodes apart (R106, R116). -/
theorem opcodeOfName_mnemonic (op : Opcode) : opcodeOfName op.mnemonic = some op := by
  cases op <;> decide

/-- A mnemonic that ends at a space, or at the end of the text, is the mnemonic token. -/
theorem split_mnemonic (op : Opcode) {rest : Text} (hrest : rest.takeWhile isToken = []) :
    mnemonicToken (op.mnemonic ++ rest) = op.mnemonic ∧ afterMnemonic (op.mnemonic ++ rest) = rest := by
  have htokens := tokens_mnemonic op
  have hskip : (op.mnemonic ++ rest).dropWhile isWs = op.mnemonic ++ rest := by
    cases op <;> rfl
  have hdrop : rest.dropWhile isToken = rest := by
    simpa [hrest] using rest.takeWhile_append_dropWhile (p := isToken)
  unfold mnemonicToken afterMnemonic
  rw [hskip, List.takeWhile_append_of_pos htokens, List.dropWhile_append_of_pos htokens, hrest, hdrop,
    List.append_nil]
  exact ⟨rfl, rfl⟩

/-- A text of a mnemonic and what follows it, once that is read as a form (R120). -/
theorem parseText_mnemonic_append (op : Opcode) {rest : Text} {f : Form}
    (hrest : rest.takeWhile isToken = []) (hform : parseForm rest = some f)
    (hpermitted : formPermitted op f = true) (hrange : formInRange f = true) :
    parseText (op.mnemonic ++ rest) = .ok op f := by
  obtain ⟨htoken, hafter⟩ := split_mnemonic op hrest
  simp only [parseText, htoken, hafter, opcodeOfName_mnemonic, hform, hpermitted, hrange, if_true]

/-! ### The form of an instruction -/

/-- The form the canonical text of an instruction denotes (R124). -/
def canonicalForm (i : Instr) : Form :=
  if i.opcode.cls = .none then .bare else operandForm i.mode i.operand

theorem canonicalForm_of_none {i : Instr} (h : i.opcode.cls = .none) : canonicalForm i = .bare := if_pos h

theorem canonicalForm_of_ne_none {i : Instr} (h : i.opcode.cls ≠ .none) :
    canonicalForm i = operandForm i.mode i.operand := if_neg h

/-- A mode that some text denotes is the mode of its form, and its form keeps the operand (R122). -/
theorem formMode_operandForm {m : Mode} (x : Operand) (hm : m ≠ .idx) :
    formMode (operandForm m x) = m ∧ formOperand (operandForm m x) = x := by
  cases m with
  | imm => exact ⟨rfl, BitVec.ofInt_toInt⟩
  | dir | ind => exact ⟨rfl, by simp [operandForm, formOperand]⟩
  | idx => exact absurd rfl hm

/-- Every operand is in the range of its form (R119). -/
theorem formInRange_operandForm (m : Mode) (x : Operand) : formInRange (operandForm m x) = true := by
  have hlt := x.isLt
  have hle := BitVec.le_toInt x
  have htoInt := BitVec.toInt_lt (x := x)
  cases m with
  | imm =>
    simp only [operandForm, formInRange, Bool.and_eq_true, decide_eq_true_eq]
    omega
  | dir | ind =>
    simp only [operandForm, formInRange, decide_eq_true_eq]
    omega
  | idx => rfl

/-- A form in range is that of the operand it is encoded with (R119, R122). -/
theorem operandForm_formOperand {f : Form} (hbare : f ≠ .bare) (hrange : formInRange f = true) :
    operandForm (formMode f) (formOperand f) = f := by
  cases f with
  | bare => exact absurd rfl hbare
  | imm n =>
    simp only [formInRange, Bool.and_eq_true, decide_eq_true_eq] at hrange
    obtain ⟨hlo, hhi⟩ := hrange
    have hn : (BitVec.ofInt 24 n).toInt = n := by
      rw [BitVec.toInt_ofInt]
      exact Int.bmod_eq_of_le (by omega) (by omega)
    simp only [operandForm, formMode, formOperand, hn]
  | dir n | ind n =>
    have hn : n < 2 ^ 24 := by simpa [formInRange, Nat.lt_succ_iff] using hrange
    simp only [operandForm, formMode, formOperand, BitVec.toNat_ofNat, Nat.mod_eq_of_lt hn]

theorem mode_ne_idx {i : Instr} (hwf : i.wellFormed = true) : i.mode ≠ .idx := by
  intro hidx
  obtain ⟨-, hmode, -⟩ | ⟨-, hmode⟩ | ⟨-, hmode⟩ | ⟨-, hmode⟩ := wellFormed_cases i hwf <;>
    simp [hidx, loadModePermitted, storeModePermitted] at hmode

/-- The form of a well-formed instruction is one its class permits (R107, R118). -/
theorem formPermitted_canonicalForm {i : Instr} (hwf : i.wellFormed = true) :
    formPermitted i.opcode (canonicalForm i) = true := by
  unfold formPermitted canonicalForm
  obtain ⟨hcls, -, -⟩ | ⟨hcls, hmode⟩ | ⟨hcls, hmode⟩ | ⟨hcls, hmode⟩ := wellFormed_cases i hwf
  · simp [hcls]
  · cases hm : i.mode <;> simp_all [operandForm, loadModePermitted]
  · cases hm : i.mode <;> simp_all [operandForm, storeModePermitted]
  · simp [hcls, hmode, operandForm]

theorem formInRange_canonicalForm (i : Instr) : formInRange (canonicalForm i) = true := by
  unfold canonicalForm
  split
  · rfl
  · exact formInRange_operandForm _ _

/-- The form of a well-formed instruction is encoded with its mode and operand (R114, R122). -/
theorem formMode_canonicalForm {i : Instr} (hwf : i.wellFormed = true) :
    formMode (canonicalForm i) = i.mode ∧ formOperand (canonicalForm i) = i.operand := by
  by_cases hcls : i.opcode.cls = .none
  · obtain ⟨-, hmode, hoperand⟩ | ⟨hcls', -⟩ | ⟨hcls', -⟩ | ⟨hcls', -⟩ := wellFormed_cases i hwf
    · rw [canonicalForm_of_none hcls, hmode, hoperand]
      exact ⟨rfl, rfl⟩
    all_goals simp [hcls] at hcls'
  · rw [canonicalForm_of_ne_none hcls]
    exact formMode_operandForm _ (mode_ne_idx hwf)

/-! ### The canonical text -/

theorem canonicalText_of_none {i : Instr} (h : i.opcode.cls = .none) :
    canonicalText i = i.opcode.mnemonic := by
  simp only [canonicalText, h]

theorem canonicalText_of_ne_none {i : Instr} (h : i.opcode.cls ≠ .none) :
    canonicalText i = i.opcode.mnemonic ++ ' ' :: operandText i.mode i.operand := by
  unfold canonicalText
  cases hcls : i.opcode.cls with
  | none => exact absurd hcls h
  | load | store | jump => rfl

/-- The canonical text of a well-formed instruction denotes its opcode and its form (R124, R127). -/
theorem parseText_canonicalText {i : Instr} (hwf : i.wellFormed = true) :
    parseText (canonicalText i) = .ok i.opcode (canonicalForm i) := by
  have hpermitted := formPermitted_canonicalForm hwf
  have hrange := formInRange_canonicalForm i
  by_cases hcls : i.opcode.cls = .none
  · rw [canonicalForm_of_none hcls] at hpermitted hrange ⊢
    rw [canonicalText_of_none hcls, ← List.append_nil i.opcode.mnemonic]
    exact parseText_mnemonic_append _ rfl rfl hpermitted hrange
  · have hidx := mode_ne_idx hwf
    have hform : parseForm (' ' :: operandText i.mode i.operand) = some (canonicalForm i) := by
      rw [parseForm_space_cons (operandText_ne_nil _ hidx) (tokens_operandText _ _),
        parseOperand_operandText _ hidx, canonicalForm_of_ne_none hcls]
    rw [canonicalText_of_ne_none hcls]
    exact parseText_mnemonic_append _ rfl hform hpermitted hrange

/-- ENCODE of the canonical text of a well-formed instruction is its canonical word (R114, R128). -/
theorem encodeText_canonicalText (l : Layout) {i : Instr} (hwf : i.wellFormed = true) :
    encodeText l (canonicalText i) = .ok (encode l i) := by
  obtain ⟨hmode, hoperand⟩ := formMode_canonicalForm hwf
  simp only [encodeText, parseText_canonicalText hwf, hmode, hoperand, encode]

/-! ### The round trip from a text -/

/-- What ENCODE accepts is of a form its class permits and in range (R120). -/
theorem permitted_of_parseText {t : Text} {op : Opcode} {f : Form} (h : parseText t = .ok op f) :
    formPermitted op f = true ∧ formInRange f = true := by
  unfold parseText at h
  split at h
  next => cases h
  next =>
    split at h
    next => cases h
    next =>
      split_ifs at h with hpermitted hrange
      cases h
      exact ⟨hpermitted, hrange⟩

/-- The forms each class permits (R118). -/
theorem formPermitted_cases {op : Opcode} {f : Form} (h : formPermitted op f = true) :
    (op.cls = .none ∧ f = .bare) ∨
      (op.cls = .load ∧ f ≠ .bare ∧ loadModePermitted (formMode f) = true) ∨
      (op.cls = .store ∧ f ≠ .bare ∧ storeModePermitted (formMode f) = true) ∨
      (op.cls = .jump ∧ f ≠ .bare ∧ formMode f = .dir) := by
  unfold formPermitted at h
  split at h
  next hcls => exact .inl ⟨hcls, rfl⟩
  next hcls => exact .inr (.inl ⟨hcls, nofun, rfl⟩)
  next hcls => exact .inr (.inl ⟨hcls, nofun, rfl⟩)
  next hcls => exact .inr (.inl ⟨hcls, nofun, rfl⟩)
  next hcls => exact .inr (.inr (.inl ⟨hcls, nofun, rfl⟩))
  next hcls => exact .inr (.inr (.inl ⟨hcls, nofun, rfl⟩))
  next hcls => exact .inr (.inr (.inr ⟨hcls, nofun, rfl⟩))
  next => cases h

/-- A form a class permits is the bare form exactly for the class NONE, and has a mode that the decoder
permits (R107, R118). -/
theorem permits_of_formPermitted {op : Opcode} {f : Form} (h : formPermitted op f = true) :
    (op.cls = .none ↔ f = .bare) ∧ op.permits (formMode f) = true := by
  unfold Opcode.permits
  obtain ⟨hcls, hf⟩ | ⟨hcls, hf, hmode⟩ | ⟨hcls, hf, hmode⟩ | ⟨hcls, hf, hmode⟩ := formPermitted_cases h
  · simp [hcls, hf]
  all_goals simp [hcls, hf, hmode]

/-- A permitted form in range is that of the instruction it denotes (R119, R122). -/
theorem canonicalForm_build {op : Opcode} {f : Form} (hpermitted : formPermitted op f = true)
    (hrange : formInRange f = true) :
    canonicalForm (Instr.build op (formMode f) (formOperand f)) = f := by
  obtain ⟨hbare, hmode⟩ := permits_of_formPermitted hpermitted
  by_cases hcls : op.cls = .none
  · rw [canonicalForm_of_none (by rwa [opcode_build]), hbare.mp hcls]
  · obtain ⟨hm, hx⟩ := build_mode_operand (formOperand f) hcls hmode
    rw [canonicalForm_of_ne_none (by rwa [opcode_build]), hm, hx]
    exact operandForm_formOperand (mt hbare.mpr hcls) hrange

/-- Settles O4: the witnesses are the fields ENCODE packs. -/
theorem acceptedTextRoundTrips : Obligations.AcceptedTextRoundTrips := by
  intro l t op f ht
  obtain ⟨hpermitted, hrange⟩ := permitted_of_parseText ht
  obtain ⟨-, hmode⟩ := permits_of_formPermitted hpermitted
  refine ⟨pack l op.number (formMode f).bits (formOperand f), formOperand f, ?_, ?_, ?_, ?_⟩
  · simp only [encodeText, ht]
  · cases f with
    | bare => rfl
    | imm n =>
      simp only [formOperand, BitVec.toNat_ofInt]
      omega
    | dir n | ind n => exact BitVec.toNat_ofNat n 24
  · rw [decode_pack, if_pos hmode]
  · rw [parseText_canonicalText (wellFormed_build _ hmode), opcode_build,
      canonicalForm_build hpermitted hrange]

/-! ### The round trip from a word -/

theorem permits_mode {i : Instr} (hwf : i.wellFormed = true) : i.opcode.permits i.mode = true := by
  unfold Opcode.permits
  obtain ⟨hcls, hmode, -⟩ | ⟨hcls, hmode⟩ | ⟨hcls, hmode⟩ | ⟨hcls, hmode⟩ := wellFormed_cases i hwf <;>
    simp [hcls, hmode]

/-- The canonical word of a well-formed instruction decodes to it (R108, R114). -/
theorem decode_encode (l : Layout) {i : Instr} (hwf : i.wellFormed = true) :
    decode l (encode l i) = .ok i := by
  rw [encode, decode_pack, if_pos (permits_mode hwf), build_self]

/-- The canonical word of a NONE-class instruction (R114). -/
theorem encode_of_none (l : Layout) {i : Instr} (hwf : i.wellFormed = true) (h : i.opcode.cls = .none) :
    encode l i = pack l i.opcode.number 0#2 noOperand := by
  obtain ⟨-, hmode, hoperand⟩ | ⟨hcls, -⟩ | ⟨hcls, -⟩ | ⟨hcls, -⟩ := wellFormed_cases i hwf
  · rw [encode, hmode, hoperand]
    rfl
  all_goals simp [h] at hcls

/-- Words that decode to one instruction execute alike (R141). -/
theorem execute_congr_decode {s : State} {w w' : Word} (commit : Bool)
    (h : decode s.params.layout w' = decode s.params.layout w) : execute w' commit s = execute w commit s := by
  simp only [execute, h]

/-- Settles O5: ENCODE of the canonical text is the canonical word of the instruction, which is the decoded word
itself when its fields are those of the instruction. -/
theorem canonicalTextReencodesTheWord : Obligations.CanonicalTextReencodesTheWord := by
  intro l w i h
  obtain ⟨-, -, hok⟩ := decoderVerdictsByFieldNumbers l w
  obtain ⟨hwf, hopc, hfields⟩ := hok i h
  have hencode := encodeText_canonicalText l hwf
  have hdecode := decode_encode l hwf
  split_ifs with hcase
  · obtain ⟨hcls, -⟩ := hcase
    refine ⟨encode l i, hencode, hopc ▸ encode_of_none l hwf hcls, hdecode, fun s commit hs => ?_⟩
    exact execute_congr_decode commit (by rw [hs, hdecode, h])
  · suffices hw : encode l i = w by rw [hencode, hw]
    by_cases hcls : i.opcode.cls = .none
    · have hcanonical : modeField l w = 0#2 ∧ opndField l w = noOperand := by
        simpa [hcls, noOperand] using hcase
      obtain ⟨hmode, hopnd⟩ := hcanonical
      rw [encode_of_none l hwf hcls, hopc, ← hmode, ← hopnd, pack_fields]
    · obtain ⟨hmode, hopnd⟩ := hfields hcls
      rw [encode, hopc, hmode, hopnd, pack_fields]

end Sys2Proof.Machine
end

section
/-! PROOF. The commands ENCODE and DECODE (30_encoding.md R122, R123, R126), settling O57. -/

namespace Sys2Proof.Machine

/-- A command that returns in one step leaves the port with its status and result (R39, R41). -/
theorem step_of_reply {s : State} {c : Command} {rest : List Command} {st : Status} {r : Result}
    (hport : s.port = c :: rest) (hrun : runCommand c s = .next (s.reply st r)) :
    step s = .next { s with port := rest, response := some { status := st, result := r } } := by
  simp only [step, portTurn, hport, hrun]
  rfl

/-- Settles O57, verdict by verdict. -/
theorem codecCommandsAnswerForTheirArgument : Obligations.CodecCommandsAnswerForTheirArgument := by
  intro s rest
  refine ⟨fun text hport => ?_, fun w hport => ?_⟩
  · cases hv : encodeText s.params.layout text with
    | ok w | unknownInstruction | invalidInstruction =>
      exact step_of_reply hport (by simp only [runCommand, cmdEncode, hv, raise])
  · cases hv : decode s.params.layout w with
    | ok i | unknownInstruction | invalidInstruction =>
      exact step_of_reply hport (by simp only [runCommand, cmdDecode, hv, raise])

end Sys2Proof.Machine
end

section
/-! PROOF. The command EXEC (46_debug_services.md R264, 40_execution_engine.md R150), settling O56. What ENCODE accepts
decodes to an instruction, so EXEC is the uncommitted execute of that instruction, and the port turn adds nothing
to the answer but the command's leaving. -/

namespace Sys2Proof.Machine

/-- What ENCODE accepts is an instruction to the decoder (R127, R264). -/
theorem exists_decode_of_encodeText {l : Layout} {text : Text} {w : Word} (h : encodeText l text = .ok w) :
    ∃ i, decode l w = .ok i := by
  cases hparse : parseText text with
  | ok op f =>
    obtain ⟨w', x, hw', -, hdecode, -⟩ := acceptedTextRoundTrips l text op f hparse
    obtain rfl : w' = w := Encoded.ok.inj (hw'.symm.trans h)
    exact ⟨_, hdecode⟩
  | unknownInstruction | invalidInstruction => simp [encodeText, hparse] at h

/-- An execute without commit takes back PC alone (R150). -/
theorem execute_uncommitted {s t : State} {w : Word} {i : Instr} (hdecode : decode s.params.layout w = .ok i)
    (hexec : exec i s = .next t) : execute w false s = .next { t with pc := s.pc } := by
  simp [execute, hdecode, hexec, onNext]

/-- A command that has returned leaves the port and changes nothing more; no breakpoint is checked outside STEP
and RUN (R39, R41, R151). -/
theorem step_of_returned {s t : State} {c : Command} {rest : List Command} (hport : s.port = c :: rest)
    (hrun : runCommand c s = .next t) (hreturned : t.response.isSome = true) :
    step s = .next { t with port := rest } := by
  simp [step, portTurn, hport, hrun, onNext, retire, hreturned]

/-- Settles O56, verdict by verdict of ENCODE. -/
theorem execRestoresOnlyPc : Obligations.ExecRestoresOnlyPc := by
  intro s text rest hport
  cases hv : encodeText s.params.layout text with
  | unknownInstruction | invalidInstruction =>
    exact step_of_reply hport (by simp only [runCommand, cmdExec, hv, raise])
  | ok w =>
    obtain ⟨i, hdecode⟩ := exists_decode_of_encodeText hv
    refine ⟨i, hdecode, fun t hexec hreturned => ?_⟩
    have hrun : runCommand (.exec text) s = .next { t with pc := s.pc } := by
      simp only [runCommand, cmdExec, hv, execute_uncommitted hdecode hexec]
    exact step_of_returned hport hrun hreturned

end Sys2Proof.Machine
end

section
/-! PROOF. Loads and stores (41_load_store.md R180 to R183), settling O12, O13, O14 and O15. The modes of an opcode
are those its class permits. A load commits the value its operand gives; a store is one MemWrite at the address its
operand gives, followed by the advance of PC. -/

namespace Sys2Proof.Machine

/-! ### The modes an opcode decodes with -/

/-- An opcode decodes to its instruction in the modes it permits and to InvalidInstruction in the others (R108). -/
theorem encodesModes_of_permits {op : Opcode} {permitted : List Mode}
    (h : ∀ m, op.permits m = true ↔ m ∈ permitted) :
    encodesModes op.number permitted (Instr.build op) := by
  intro l m x
  simp only [decode_pack, h m]

/-- LOAD permits IMM, DIR and IND (R107). -/
theorem encodesModes_of_load {op : Opcode} (hcls : op.cls = .load) :
    encodesModes op.number [.imm, .dir, .ind] (Instr.build op) :=
  encodesModes_of_permits fun m => by
    simp only [Opcode.permits, hcls]
    cases m <;> decide

/-- STORE permits DIR and IND (R107). -/
theorem encodesModes_of_store {op : Opcode} (hcls : op.cls = .store) :
    encodesModes op.number [.dir, .ind] (Instr.build op) :=
  encodesModes_of_permits fun m => by
    simp only [Opcode.permits, hcls]
    cases m <;> decide

/-! ### Loads -/

/-- LDA of an operand with a value loads A and sets the flags from it (R180). -/
theorem exec_lda_of_loadValue {m : Mode} {x : Operand} {s : State} {v : Word}
    (h : loadValue s m x = some v) : exec (.lda m x) s = .next (afterLoadA s v) := by
  simp only [exec, execLda, h]
  rfl

/-- LDB of an operand with a value loads B and keeps the flags (R181). -/
theorem exec_ldb_of_loadValue {m : Mode} {x : Operand} {s : State} {v : Word}
    (h : loadValue s m x = some v) :
    exec (.ldb m x) s = .next { s with b := v, pc := nextPc s, response := answered .ok } := by
  simp only [exec, execLdb, h]
  rfl

/-- Settles O12: each mode's operand value is the one R144 names. -/
theorem ldaLoadsItsOperand : Obligations.LdaLoadsItsOperand :=
  ⟨encodesModes_of_load (op := .lda) rfl, fun _ _ =>
    ⟨exec_lda_of_loadValue rfl, exec_lda_of_loadValue rfl, exec_lda_of_loadValue rfl⟩⟩

/-- Settles O13, as O12 with LDB's commit. -/
theorem ldbLoadsItsOperandAndNoFlags : Obligations.LdbLoadsItsOperandAndNoFlags :=
  ⟨encodesModes_of_load (op := .ldb) rfl, fun _ _ =>
    ⟨exec_ldb_of_loadValue rfl, exec_ldb_of_loadValue rfl, exec_ldb_of_loadValue rfl⟩⟩

/-! ### A handler with a write, by whether the write fits -/

/-- MemWrite fails exactly when the write does not fit: the negations of its two checks are what a write needs
(R64). -/
theorem memWrite_eq_none_iff_not_writeFits (s : State) (ea : Addr) (v : Word) (suppress : Bool) :
    memWrite s ea v suppress = none ↔ ¬writeFits s ea suppress := by
  obtain ⟨hfails, -⟩ := memWriteChecksThenStores s ea v suppress
  rw [hfails, writeFits, not_and_or]
  simp

/-- A write that fits answers the written state (R64, R66). -/
theorem memWrite_of_writeFits {s : State} {ea : Addr} {suppress : Bool} (v : Word)
    (h : writeFits s ea suppress) : memWrite s ea v suppress = some (afterWrite s ea v suppress) := by
  cases hw : memWrite s ea v suppress with
  | none => exact absurd h ((memWrite_eq_none_iff_not_writeFits s ea v suppress).mp hw)
  | some t => rw [eq_afterWrite_of_memWrite hw]

/-- A handler whose write fits commits whole (40_execution_engine.md R148). -/
theorem commitWrite_of_writeFits {s : State} {ea : Addr} {suppress : Bool} (v : Word) (rest : State → State)
    (h : writeFits s ea suppress) :
    commitWrite s ea v suppress rest = complete (rest (afterWrite s ea v suppress)) := by
  simp only [commitWrite, memWrite_of_writeFits v h]

/-- A handler whose write does not fit commits nothing (R148). -/
theorem commitWrite_of_not_writeFits {s : State} {ea : Addr} {suppress : Bool} (v : Word) (rest : State → State)
    (h : ¬writeFits s ea suppress) : commitWrite s ea v suppress rest = raise .outOfMemory s := by
  simp only [commitWrite, (memWrite_eq_none_iff_not_writeFits s ea v suppress).mpr h]

/-! ### Stores -/

/-- The address of a store in each of its two modes (R145). -/
theorem storeAddr_eq_some {m : Mode} {x : Operand} {s : State} {ea : Addr}
    (h : m = .dir ∧ ea = x.setWidth 32 ∨ m = .ind ∧ ea = toAddr s.params (memRead s (x.setWidth 32))) :
    storeAddr s m x = some ea := by
  obtain ⟨rfl, rfl⟩ | ⟨rfl, rfl⟩ := h <;> rfl

/-- The address after PC is that of the state before the write (R147). -/
theorem advance_afterWrite (s : State) (ea : Addr) (v : Word) (suppress : Bool) :
    (afterWrite s ea v suppress).advance = { afterWrite s ea v suppress with pc := nextPc s } := by
  cases suppress <;> rfl

/-- What STA and STB share: the cell and the advance of PC together, or OutOfMemory with nothing changed
(R182, R183). -/
theorem store_outcomes (s : State) (ea : Addr) (v : Word) :
    (writeFits s ea false → commitWrite s ea v false State.advance =
      .next { afterWrite s ea v false with pc := nextPc s, response := answered .ok }) ∧
    (¬writeFits s ea false → commitWrite s ea v false State.advance =
      .next { s with response := answered .outOfMemory }) := by
  refine ⟨fun h => ?_, fun h => ?_⟩
  · rw [commitWrite_of_writeFits v _ h, advance_afterWrite]
    rfl
  · rw [commitWrite_of_not_writeFits v _ h]
    rfl

theorem exec_sta_of_storeAddr {m : Mode} {x : Operand} {s : State} {ea : Addr} (h : storeAddr s m x = some ea) :
    exec (.sta m x) s = commitWrite s ea s.a false State.advance := by
  simp only [exec, execSta, h]

theorem exec_stb_of_storeAddr {m : Mode} {x : Operand} {s : State} {ea : Addr} (h : storeAddr s m x = some ea) :
    exec (.stb m x) s = commitWrite s ea s.b false State.advance := by
  simp only [exec, execStb, h]

/-- Settles O14: STA is the store of A at the address of its mode. -/
theorem staStoresA : Obligations.StaStoresA := by
  refine ⟨encodesModes_of_store (op := .sta) rfl, fun m x s ea hea => ?_⟩
  rw [exec_sta_of_storeAddr (storeAddr_eq_some hea)]
  exact store_outcomes s ea s.a

/-- Settles O15: STB is the store of B at the address of its mode. -/
theorem stbStoresB : Obligations.StbStoresB := by
  refine ⟨encodesModes_of_store (op := .stb) rfl, fun m x s ea hea => ?_⟩
  rw [exec_stb_of_storeAddr (storeAddr_eq_some hea)]
  exact store_outcomes s ea s.b

end Sys2Proof.Machine
end

section
/-! PROOF. The floating-point shadow (42_arithmetic.md R201 to R203), settling O22 and O23. An `Fp` is read as the
rational number it stands for, `Fp.val`. Each operation of the shadow answers the exact result rounded once
(`IsRounding`), and a rounding to p bits is within a 2^-p part of the exact value and keeps an integer below
2^p. The detector thus compares the integer result with the exact result up to that error, which no wrapped
product and no truncated quotient can hide in. -/

namespace Sys2Proof.Machine

/-! ### Values -/

/-- A magnitude under a sign bit. -/
def signed (neg : Bool) (q : ℚ) : ℚ := if neg then -q else q

/-- The number an `Fp` stands for, (-1)^neg * sig * 2^exp. -/
def Fp.val (x : Fp) : ℚ := signed x.neg (x.sig * 2 ^ x.exp)

@[simp] theorem signed_zero (neg : Bool) : signed neg 0 = 0 := by
  cases neg <;> simp [signed]

@[simp] theorem abs_signed (neg : Bool) (q : ℚ) : |signed neg q| = |q| := by
  cases neg <;> simp [signed]

theorem signed_sub (neg : Bool) (p q : ℚ) : signed neg (p - q) = signed neg p - signed neg q := by
  cases neg <;> simp [signed, neg_add_eq_sub]

theorem signed_mul_right (neg : Bool) (p q : ℚ) : signed neg (p * q) = signed neg p * q := by
  cases neg <;> simp [signed]

theorem signed_bne_mul (m n : Bool) (p q : ℚ) : signed (m != n) (p * q) = signed m p * signed n q := by
  cases m <;> cases n <;> simp [signed]

theorem signed_bne_div (m n : Bool) (p q : ℚ) : signed (m != n) (p / q) = signed m p / signed n q := by
  cases m <;> cases n <;> simp [signed, neg_div, div_neg]

/-- An integer is its magnitude under its sign. -/
theorem signed_natAbs (m : ℤ) : signed (decide (m < 0)) m.natAbs = m := by
  rw [Nat.cast_natAbs, signed]
  rcases lt_or_ge m 0 with h | h
  · simp [h, abs_of_neg h]
  · simp [not_lt.mpr h, abs_of_nonneg h]

theorem fpNeg_val (x : Fp) : (fpNeg x).val = -x.val := by
  cases h : x.neg <;> simp [fpNeg, Fp.val, signed, h]

/-! ### Scaling by a power of two -/

theorem scaleNum_ne_zero {n : ℕ} (hn : n ≠ 0) (e : ℤ) : scaleNum n e ≠ 0 :=
  mul_ne_zero hn (by positivity)

theorem scaleNum_cast {e : ℤ} (he : 0 ≤ e) (n : ℕ) : (scaleNum n e : ℚ) = n * 2 ^ e := by
  rw [scaleNum, Nat.cast_mul, Nat.cast_pow, ← zpow_natCast, Int.toNat_of_nonneg he, Nat.cast_ofNat]

/-- A power of two is put on the numerator or, inverted, on the denominator. -/
theorem scaleNum_div (n d : ℕ) (e : ℤ) : (scaleNum n e : ℚ) / scaleNum d (-e) = n / d * 2 ^ e := by
  have hsplit : (2 : ℚ) ^ e = 2 ^ e.toNat / 2 ^ (-e).toNat := by
    rw [← zpow_natCast, ← zpow_natCast, ← zpow_sub₀ two_ne_zero, Int.toNat_sub_toNat_neg]
  simp only [scaleNum, Nat.cast_mul, Nat.cast_pow, Nat.cast_ofNat, hsplit, mul_div_mul_comm]

/-- A fraction counted in units of 2^e. -/
theorem scaleNum_div_mul (n d : ℕ) (e : ℤ) : (scaleNum n (-e) : ℚ) / scaleNum d e * 2 ^ e = n / d := by
  have hscale := scaleNum_div n d (-e)
  rw [neg_neg] at hscale
  rw [hscale, zpow_neg, inv_mul_cancel_right₀ (by positivity)]

theorem fpAligned_val {x : Fp} {e : ℤ} (he : e ≤ x.exp) : (fpAligned x e : ℚ) * 2 ^ e = x.val := by
  have hscale : (scaleNum x.sig (x.exp - e) : ℚ) * 2 ^ e = x.sig * 2 ^ x.exp := by
    rw [scaleNum_cast (sub_nonneg.mpr he), mul_assoc, ← zpow_add₀ two_ne_zero, sub_add_cancel]
  rw [Fp.val, ← hscale, signed_mul_right]
  cases h : x.neg <;> simp [fpAligned, signed, h]

/-- IEEE equality is equality of the numbers (R201). -/
theorem fpEq_iff (x y : Fp) : fpEq x y = true ↔ x.val = y.val := by
  rw [fpEq, beq_iff_eq, ← fpAligned_val (min_le_left x.exp y.exp), ← fpAligned_val (min_le_right x.exp y.exp),
    mul_left_inj' (by positivity), Int.cast_inj]

/-! ### Rounding a fraction -/

theorem divNearestEven_bounds (num : ℕ) {den : ℕ} (hden : den ≠ 0) :
    2 * (divNearestEven num den * den) ≤ 2 * num + den ∧
      2 * num ≤ 2 * (divNearestEven num den * den) + den := by
  have hdiv := Nat.div_add_mod' num den
  have hlt := Nat.mod_lt num (Nat.pos_of_ne_zero hden)
  have hsucc := add_mul (num / den) 1 den
  simp only [divNearestEven]
  split_ifs <;> omega

/-- The nearest integer is within one half. -/
theorem divNearestEven_error (num : ℕ) {den : ℕ} (hden : den ≠ 0) :
    |(divNearestEven num den : ℚ) - num / den| ≤ 1 / 2 := by
  have hpos : (0 : ℚ) < den := by exact_mod_cast Nat.pos_of_ne_zero hden
  obtain ⟨hle, hge⟩ := divNearestEven_bounds num hden
  have hleQ : (2 * (divNearestEven num den * den) : ℚ) ≤ 2 * num + den := by exact_mod_cast hle
  have hgeQ : (2 * num : ℚ) ≤ 2 * (divNearestEven num den * den) + den := by exact_mod_cast hge
  rw [sub_div' hpos.ne', abs_div, abs_of_pos hpos, div_le_iff₀ hpos, abs_le]
  constructor <;> linarith

theorem divNearestEven_of_dvd {num den : ℕ} (hden : den ≠ 0) (h : den ∣ num) :
    divNearestEven num den = num / den := by
  simp [divNearestEven, Nat.mod_eq_zero_of_dvd h, Nat.pos_of_ne_zero hden]

/-- The unit of the significand is small enough for `prec` bits: the significand is at least 2^(prec-1). -/
theorem fpExponent_le (prec : ℕ) {num den : ℕ} (hnum : num ≠ 0) (hden : den ≠ 0) :
    (2 : ℚ) ^ fpExponent prec num den * 2 ^ prec ≤ 2 * (num / den) := by
  have hpos : (0 : ℚ) < den := by exact_mod_cast Nat.pos_of_ne_zero hden
  simp only [fpExponent]
  set e : ℤ := (num.log2 : ℤ) - den.log2 - prec with he
  split_ifs with hfirst
  · have hlo : (2 : ℚ) ^ num.log2 ≤ num := by exact_mod_cast Nat.log2_self_le hnum
    have hhi : (den : ℚ) ≤ 2 ^ (den.log2 + 1) := by exact_mod_cast Nat.lt_log2_self.le
    calc (2 : ℚ) ^ e * 2 ^ prec = 2 * (2 ^ num.log2 / 2 ^ (den.log2 + 1)) := by
          simp only [he, zpow_sub₀ (two_ne_zero' ℚ), zpow_natCast, pow_succ]
          field_simp
      _ ≤ 2 * (num / den) := by gcongr
  · have hquot : (2 : ℚ) ^ prec ≤ scaleNum num (-e) / scaleNum den e :=
      calc (2 : ℚ) ^ prec ≤ (scaleNum num (-e) / scaleNum den e : ℕ) := by exact_mod_cast not_lt.mp hfirst
        _ ≤ scaleNum num (-e) / scaleNum den e := Nat.cast_div_le
    calc (2 : ℚ) ^ (e + 1) * 2 ^ prec = 2 * (2 ^ prec * 2 ^ e) := by rw [zpow_add_one₀ two_ne_zero]; ring
      _ ≤ 2 * (scaleNum num (-e) / scaleNum den e * 2 ^ e) := by gcongr
      _ = 2 * (num / den) := by rw [scaleNum_div_mul]

theorem fpRound_zero_val (fmt : ShadowFp) (neg : Bool) (den : ℕ) : (fpRound fmt neg 0 den).val = 0 := by
  simp [fpRound, Fp.val]

/-- A rounding counts the fraction, to the nearest integer, in units of a power of two. -/
theorem fpRound_val (fmt : ShadowFp) (neg : Bool) {num : ℕ} (hnum : num ≠ 0) (den : ℕ) {e : ℤ}
    (he : fpExponent (fpPrecision fmt) num den = e) :
    (fpRound fmt neg num den).val =
      signed neg (divNearestEven (scaleNum num (-e)) (scaleNum den e) * 2 ^ e) := by
  simp [fpRound, hnum, Fp.val, he]

/-- A rounding to p bits is off by at most a 2^-p part of the fraction. -/
theorem fpRound_error (fmt : ShadowFp) (neg : Bool) (num : ℕ) {den : ℕ} (hden : den ≠ 0) :
    |(fpRound fmt neg num den).val - signed neg (num / den)| * 2 ^ fpPrecision fmt ≤ num / den := by
  by_cases hnum : num = 0
  · simp [hnum, fpRound_zero_val]
  · have hexp := fpExponent_le (fpPrecision fmt) hnum hden
    generalize he : fpExponent (fpPrecision fmt) num den = e at hexp
    have hnearest := divNearestEven_error (scaleNum num (-e)) (scaleNum_ne_zero hden e)
    have herror : |(fpRound fmt neg num den).val - signed neg (num / den)| ≤ 1 / 2 * 2 ^ e := by
      rw [fpRound_val fmt neg hnum den he, ← signed_sub, abs_signed, ← scaleNum_div_mul num den e, ← sub_mul,
        abs_mul, abs_of_pos (a := (2 : ℚ) ^ e) (by positivity)]
      gcongr
    calc _ ≤ 1 / 2 * 2 ^ e * 2 ^ fpPrecision fmt := by gcongr
      _ ≤ (num / den : ℚ) := by linarith

/-- An integer of at most p bits is its own rounding: its unit is at most 1, so no bit of it is cut off. -/
theorem fpRound_exact (fmt : ShadowFp) (neg : Bool) {k den : ℕ} (hden : den ≠ 0)
    (hk : k < 2 ^ fpPrecision fmt) : (fpRound fmt neg (k * den) den).val = signed neg k := by
  by_cases hk0 : k = 0
  · simp [hk0, fpRound_zero_val]
  · have hquot : ((k * den : ℕ) / den : ℚ) = k := by
      rw [Nat.cast_mul, mul_div_cancel_right₀ _ (by exact_mod_cast hden)]
    have hnum : k * den ≠ 0 := mul_ne_zero hk0 hden
    have hexp := fpExponent_le (fpPrecision fmt) hnum hden
    generalize he : fpExponent (fpPrecision fmt) (k * den) den = e at hexp
    have hunit : e ≤ 0 := by
      have hkQ : (k : ℚ) < 2 ^ fpPrecision fmt := by exact_mod_cast hk
      have hlt : (2 : ℚ) ^ e * 2 ^ fpPrecision fmt < 2 ^ (1 : ℤ) * 2 ^ fpPrecision fmt := by
        rw [zpow_one]
        linarith
      have hone := (zpow_lt_zpow_iff_right₀ one_lt_two).mp (lt_of_mul_lt_mul_right hlt (by positivity))
      omega
    have hdvd : scaleNum den e ∣ scaleNum (k * den) (-e) := by
      simp [scaleNum, Int.toNat_of_nonpos hunit, mul_assoc, mul_left_comm k]
    have hscaled := scaleNum_ne_zero hden e
    rw [fpRound_val fmt neg hnum den he, divNearestEven_of_dvd hscaled hdvd,
      Nat.cast_div hdvd (by exact_mod_cast hscaled), scaleNum_div_mul, hquot]

/-! ### The operations of the shadow -/

/-- `x` is the number `q` rounded to the format. -/
def IsRounding (fmt : ShadowFp) (q : ℚ) (x : Fp) : Prop :=
  ∃ neg num den, den ≠ 0 ∧ x = fpRound fmt neg num den ∧ q = signed neg (num / den)

theorem IsRounding.error {fmt : ShadowFp} {q : ℚ} {x : Fp} (h : IsRounding fmt q x) :
    |x.val - q| * 2 ^ fpPrecision fmt ≤ |q| := by
  obtain ⟨neg, num, den, hden, rfl, rfl⟩ := h
  rw [abs_signed, abs_of_nonneg (a := (num / den : ℚ)) (by positivity)]
  exact fpRound_error fmt neg num hden

theorem IsRounding.exact {fmt : ShadowFp} {m : ℤ} {x : Fp} (h : IsRounding fmt m x)
    (hm : m.natAbs < 2 ^ fpPrecision fmt) : x.val = m := by
  obtain ⟨neg, num, den, hden, rfl, hq⟩ := h
  have hdenQ : (den : ℚ) ≠ 0 := by exact_mod_cast hden
  have habs : (m.natAbs : ℚ) = num / den := by
    rw [Nat.cast_natAbs, Int.cast_abs, hq, abs_signed, abs_of_nonneg (by positivity)]
  obtain rfl : m.natAbs * den = num := by exact_mod_cast (eq_div_iff hdenQ).mp habs
  rw [fpRound_exact fmt neg hden hm, habs, hq]

theorem toFp_isRounding (fmt : ShadowFp) (v : ℤ) : IsRounding fmt v (toFp fmt v) :=
  ⟨_, _, 1, one_ne_zero, rfl, by rw [Nat.cast_one, div_one, signed_natAbs]⟩

theorem fpAdd_isRounding (fmt : ShadowFp) (x y : Fp) : IsRounding fmt (x.val + y.val) (fpAdd fmt x y) := by
  refine ⟨_, _, _, scaleNum_ne_zero one_ne_zero _, rfl, ?_⟩
  rw [scaleNum_div, Nat.cast_one, div_one, signed_mul_right, ← fpAligned_val (min_le_left x.exp y.exp),
    ← fpAligned_val (min_le_right x.exp y.exp), ← add_mul, ← Int.cast_add]
  congr 1
  split_ifs with hzero
  · simp [hzero]
  · rw [signed_natAbs]

theorem fpSub_isRounding (fmt : ShadowFp) (x y : Fp) : IsRounding fmt (x.val - y.val) (fpSub fmt x y) := by
  rw [sub_eq_add_neg, ← fpNeg_val]
  exact fpAdd_isRounding fmt x (fpNeg y)

theorem fpMul_isRounding (fmt : ShadowFp) (x y : Fp) : IsRounding fmt (x.val * y.val) (fpMul fmt x y) := by
  refine ⟨_, _, _, scaleNum_ne_zero one_ne_zero _, rfl, ?_⟩
  rw [scaleNum_div, Nat.cast_one, div_one, Fp.val, Fp.val, ← signed_bne_mul, Nat.cast_mul,
    zpow_add₀ two_ne_zero, mul_mul_mul_comm]

theorem fpDiv_isRounding (fmt : ShadowFp) (x : Fp) {y : Fp} (hy : y.val ≠ 0) :
    IsRounding fmt (x.val / y.val) (fpDiv fmt x y) := by
  have hsig : y.sig ≠ 0 := fun h => hy (by simp [Fp.val, h])
  refine ⟨_, _, _, scaleNum_ne_zero hsig _, rfl, ?_⟩
  rw [scaleNum_div, Fp.val, Fp.val, ← signed_bne_div, zpow_sub₀ two_ne_zero, mul_div_mul_comm]

/-- The exact result of an operation, a quotient not yet rounded toward zero. -/
def aluReal (op : AluOp) (p q : ℚ) : ℚ :=
  match op with
  | .add => p + q
  | .sub => p - q
  | .mul => p * q
  | .div => p / q

theorem fpOp_isRounding (fmt : ShadowFp) (op : AluOp) (x : Fp) {y : Fp} (hy : op = .div → y.val ≠ 0) :
    IsRounding fmt (aluReal op x.val y.val) (fpOp fmt op x y) := by
  cases op with
  | add => exact fpAdd_isRounding fmt x y
  | sub => exact fpSub_isRounding fmt x y
  | mul => exact fpMul_isRounding fmt x y
  | div => exact fpDiv_isRounding fmt x (hy rfl)

/-! ### The detector under BINARY64 -/

theorem toInt_range (w : Word) : -2 ^ 31 ≤ w.toInt ∧ w.toInt ≤ 2 ^ 31 - 1 := by
  have hle := w.le_toInt
  have hlt := w.toInt_lt
  omega

/-- An int32 converts to binary64 exactly (R202). -/
theorem toFp_toInt_val (w : Word) : (toFp .binary64 w.toInt).val = w.toInt := by
  have hrange := toInt_range w
  refine (toFp_isRounding .binary64 w.toInt).exact ?_
  simp only [fpPrecision]
  omega

section Detector

variable {op : AluOp} {a b : Word}

/-- The floating-point result is the exact result rounded once (R201). -/
theorem shadow_isRounding (hb : op = .div → b.toInt ≠ 0) :
    IsRounding .binary64 (aluReal op a.toInt b.toInt)
      (fpOp .binary64 op (toFp .binary64 a.toInt) (toFp .binary64 b.toInt)) := by
  have hround := fpOp_isRounding .binary64 op (toFp .binary64 a.toInt) (y := toFp .binary64 b.toInt)
  simp only [toFp_toInt_val, ne_eq, Int.cast_eq_zero] at hround
  exact hround hb

theorem mismatch_iff (r : Word) : mismatch .binary64 op a.toInt b.toInt r = true ↔
    (fpOp .binary64 op (toFp .binary64 a.toInt) (toFp .binary64 b.toInt)).val ≠ r.toInt := by
  rw [mismatch, Bool.not_eq_true', ← Bool.not_eq_true, fpEq_iff, toFp_toInt_val]

/-- An integer result of at most 53 bits is compared exactly. -/
theorem mismatch_iff_of_small (r : Word) {m : ℤ} (hb : op = .div → b.toInt ≠ 0)
    (hm : aluReal op a.toInt b.toInt = m) (hsmall : m.natAbs < 2 ^ 53) :
    mismatch .binary64 op a.toInt b.toInt r = true ↔ m ≠ r.toInt := by
  have hround := shadow_isRounding (a := a) hb
  rw [hm] at hround
  rw [mismatch_iff, hround.exact hsmall, ne_eq, Int.cast_inj]

/-- An integer result further from the exact result than the rounding error is told apart from it. -/
theorem mismatch_of_far {r : Word} (hb : op = .div → b.toInt ≠ 0)
    (hfar : |aluReal op a.toInt b.toInt| < |aluReal op a.toInt b.toInt - r.toInt| * 2 ^ 53) :
    mismatch .binary64 op a.toInt b.toInt r = true := by
  rw [mismatch_iff]
  intro heq
  have herror := (shadow_isRounding (a := a) hb).error
  rw [heq, abs_sub_comm] at herror
  exact absurd herror (not_le.mpr hfar)

/-! ### Sums, differences and products -/

/-- Wrapping keeps exactly the integers in signed range (R200). -/
theorem toInt_wrap32_eq_iff (m : ℤ) : m = (wrap32 m).toInt ↔ -2 ^ 31 ≤ m ∧ m ≤ 2 ^ 31 - 1 := by
  have hwrap : (wrap32 m).toInt = m.bmod (2 ^ 32) := BitVec.toInt_ofInt ..
  rw [hwrap, Int.bmod_def]
  omega

theorem aluReal_eq_aluExact (h : op ≠ .div) : aluReal op a.toInt b.toInt = aluExact op a.toInt b.toInt := by
  cases op with
  | add => exact (Int.cast_add ..).symm
  | sub => exact (Int.cast_sub ..).symm
  | mul => exact (Int.cast_mul ..).symm
  | div => exact absurd rfl h

/-! ### Quotients -/

theorem aluReal_div_of_eq_mul {c : ℤ} (ha : a.toInt = b.toInt * c) (hb : b.toInt ≠ 0) :
    aluReal .div a.toInt b.toInt = c := by
  rw [aluReal, ha, Int.cast_mul, mul_div_cancel_left₀ _ (Int.cast_ne_zero.mpr hb)]

theorem natAbs_le_of_eq_mul {c : ℤ} (ha : a.toInt = b.toInt * c) (hb : b.toInt ≠ 0) : c.natAbs ≤ 2 ^ 31 := by
  have hrange := toInt_range a
  calc c.natAbs ≤ b.toInt.natAbs * c.natAbs := Nat.le_mul_of_pos_left _ (Int.natAbs_pos.mpr hb)
    _ = a.toInt.natAbs := by rw [ha, Int.natAbs_mul]
    _ ≤ 2 ^ 31 := by omega

/-- An integer quotient of two int32 values is out of signed range at -2^31 / -1 alone (R203). -/
theorem quotient_out_of_range_iff {c : ℤ} (ha : a.toInt = b.toInt * c) (hb : b.toInt ≠ 0) :
    ¬(-2 ^ 31 ≤ c ∧ c ≤ 2 ^ 31 - 1) ↔ a.toInt = -2 ^ 31 ∧ b.toInt = -1 := by
  have hc := natAbs_le_of_eq_mul ha hb
  have hrange := toInt_range a
  constructor
  · intro hout
    obtain rfl : c = 2 ^ 31 := by omega
    omega
  · rintro ⟨haMin, hbNeg⟩
    rw [haMin, hbNeg] at ha
    omega

/-- A quotient that is no integer is at least 1/|b| from every integer, and |a|/|b| is below 2^53/|b| (R203). -/
theorem quotient_far_of_not_dvd (hb : b.toInt ≠ 0) (hdvd : ¬b.toInt ∣ a.toInt) (r : ℤ) :
    |aluReal .div a.toInt b.toInt| < |aluReal .div a.toInt b.toInt - r| * 2 ^ 53 := by
  have hbQ : (b.toInt : ℚ) ≠ 0 := Int.cast_ne_zero.mpr hb
  have hrest : a.toInt - b.toInt * r ≠ 0 := fun h => hdvd ⟨r, sub_eq_zero.mp h⟩
  have hone : 1 ≤ |a.toInt - b.toInt * r| := Int.one_le_abs hrest
  have hrange := toInt_range a
  have hsmall : |a.toInt| ≤ 2 ^ 31 := abs_le.mpr (by omega)
  have hfar : |a.toInt| < |a.toInt - b.toInt * r| * 2 ^ 53 := by omega
  have hfarQ : |(a.toInt : ℚ)| < |(a.toInt - b.toInt * r : ℚ)| * 2 ^ 53 := by exact_mod_cast hfar
  rw [aluReal, div_sub' hbQ, abs_div, abs_div, div_mul_eq_mul_div]
  gcongr

end Detector

/-! ### The two equivalences -/

/-- Settles O22: a result below 2^53 is compared exactly, and a larger product is so far from every int32 that its
rounding is none. -/
theorem shadowFindsSignedOverflow : Obligations.ShadowFindsSignedOverflow := by
  intro op a b hop
  have hreal := aluReal_eq_aluExact (a := a) (b := b) hop
  have hb : op = .div → b.toInt ≠ 0 := fun h => absurd h hop
  rw [aluInt]
  generalize aluExact op a.toInt b.toInt = m at hreal ⊢
  by_cases hsmall : m.natAbs < 2 ^ 53
  · rw [mismatch_iff_of_small _ hb hreal hsmall, ne_eq, toInt_wrap32_eq_iff]
  · refine iff_of_true (mismatch_of_far hb ?_) (by omega)
    have hr := toInt_range (wrap32 m)
    have hfar : m.natAbs < (m - (wrap32 m).toInt).natAbs * 2 ^ 53 := by omega
    rw [hreal]
    have hfarQ : (m.natAbs : ℚ) < (m - (wrap32 m).toInt).natAbs * 2 ^ 53 := by exact_mod_cast hfar
    simpa [Nat.cast_natAbs] using hfarQ

/-- Settles O23: an integer quotient is compared exactly, any other is too far from every integer. -/
theorem shadowFindsInexactQuotient : Obligations.ShadowFindsInexactQuotient := by
  intro a b hb
  by_cases hdvd : b.toInt ∣ a.toInt
  · obtain ⟨c, ha⟩ := hdvd
    have hquot : aluInt .div a.toInt b.toInt = wrap32 c := by
      rw [aluInt, aluExact, ha, Int.mul_tdiv_cancel_left _ hb]
    have hmod : a.toInt % b.toInt = 0 := by rw [ha, Int.mul_emod_right]
    have hc := natAbs_le_of_eq_mul ha hb
    rw [mismatch_iff_of_small _ (fun _ => hb) (aluReal_div_of_eq_mul ha hb) (by omega), hquot, ne_eq,
      toInt_wrap32_eq_iff, quotient_out_of_range_iff ha hb, hmod]
    simp
  · have hmod : a.toInt % b.toInt ≠ 0 := fun h => hdvd (Int.dvd_of_emod_eq_zero h)
    exact iff_of_true (mismatch_of_far (fun _ => hb) (quotient_far_of_not_dvd hb hdvd _)) (.inl hmod)

end Sys2Proof.Machine
end

section
/-! PROOF. The arithmetic instructions (42_arithmetic.md R206 to R210), settling O18, O19, O20 and O21. The decoder
ignores the mode and the operand of a NONE-class opcode. The four instructions share one commit, and DIV comes
to it by the two tests of R209 and R210. -/

namespace Sys2Proof.Machine

/-- A NONE-class opcode builds its instruction from any mode and operand (R108). -/
theorem build_of_none {i : Instr} (h : i.opcode.cls = .none) (m : Mode) (x : Operand) :
    Instr.build i.opcode m x = i := by
  cases i with
  | lda | ldb | sta | stb | jsb | jmp | jsp | jsn | jiz | jof => cases h
  | _ => rfl

/-- A NONE-class opcode decodes in every mode (R107, R108). -/
theorem encodesBare_of_none {i : Instr} (h : i.opcode.cls = .none) : encodesBare i.opcode.number i := by
  intro l m x
  have hpermits : i.opcode.permits (Mode.ofBits m) = true := by simp only [Opcode.permits, h]
  rw [← bits_ofBits m, decode_pack, if_pos hpermits, build_of_none h]

/-- What ADD, SUB, MUL and DIV commit (R205 to R209). -/
theorem complete_arith {op : AluOp} {s : State} {r : Word} (h : r = aluInt op s.a.toInt s.b.toInt) :
    complete (arith op s) =
      .next (afterArith s r (mismatch s.params.shadowFp op s.a.toInt s.b.toInt r)) := by
  subst h
  rfl

/-- Settles O18. -/
theorem addResultAndFlags : Obligations.AddResultAndFlags :=
  ⟨encodesBare_of_none (i := .add) rfl, fun _ _ => complete_arith (op := .add)⟩

/-- Settles O19. -/
theorem subResultAndFlags : Obligations.SubResultAndFlags :=
  ⟨encodesBare_of_none (i := .sub) rfl, fun _ _ => complete_arith (op := .sub)⟩

/-- Settles O20. -/
theorem mulResultAndFlags : Obligations.MulResultAndFlags :=
  ⟨encodesBare_of_none (i := .mul) rfl, fun _ _ => complete_arith (op := .mul)⟩

/-! ### DIV -/

theorem divOverflows_iff (s : State) :
    divOverflows s = true ↔ s.a.toInt = -2 ^ 31 ∧ s.b.toInt = -1 := by
  simp [divOverflows]

theorem exec_div_of_zero {s : State} (hb : s.b.toInt = 0) :
    exec .div s = .next { s with response := answered .divideByZero } := by
  rw [exec, execDiv, if_pos hb]
  rfl

/-- The one case without a result (R210). -/
theorem exec_div_of_undefined {s : State} (hb : s.b.toInt ≠ 0) (hover : divOverflows s = true)
    (hovf : s.params.divOvf = .undefined) : exec .div s = .fault .divOverflowUndefined := by
  simp [exec, execDiv, hb, hover, hovf]

/-- Every case with a result (R209). -/
theorem exec_div_of_result {s : State} (hb : s.b.toInt ≠ 0)
    (hres : ¬(divOverflows s = true ∧ s.params.divOvf = .undefined)) :
    exec .div s = complete (arith .div s) := by
  rw [exec, execDiv, if_neg hb, if_neg (by simpa using hres)]

/-- Settles O21, test by test of DIV. -/
theorem divResultFlagsAndErrors : Obligations.DivResultFlagsAndErrors := by
  refine ⟨encodesBare_of_none (i := .div) rfl, fun s r hr =>
    ⟨exec_div_of_zero, fun ha hb hovf => ?_, fun hb hcase => ?_⟩⟩
  · exact exec_div_of_undefined (by omega) ((divOverflows_iff s).mpr ⟨ha, hb⟩) hovf
  · rw [exec_div_of_result hb, complete_arith hr]
    rintro ⟨hover, hovf⟩
    obtain ⟨ha, hbNeg⟩ := (divOverflows_iff s).mp hover
    simp [ha, hbNeg, hovf] at hcase

end Sys2Proof.Machine
end

section
/-! PROOF. Input and output (43_io.md R220, R221), settling O25 and O27. Both opcodes are NONE-class, so both decode
by the lemma of the arithmetic instructions. Of the two, only INP has a case split: it needs a value in IN. -/

namespace Sys2Proof.Machine

/-- INP's case with a value available, in which it commits as LDA does and shortens IN (R220). -/
theorem exec_inp_of_input_cons {s : State} {v : Word} {rest : List Word} (h : s.input = v :: rest) :
    exec .inp s = .next { afterLoadA s v with input := rest } := by
  rw [exec, execInp, h]
  rfl

/-- OUT has no other case (R221). -/
theorem exec_out (s : State) : exec .out s =
    .next { s with outLog := s.outLog ++ [s.a], pc := nextPc s, response := answered .ok } := rfl

/-- Settles O25. -/
theorem inpTakesTheNextValue : Obligations.InpTakesTheNextValue :=
  ⟨encodesBare_of_none (i := .inp) rfl, fun _ _ _ => exec_inp_of_input_cons⟩

/-- Settles O27. -/
theorem outAppendsA : Obligations.OutAppendsA :=
  ⟨encodesBare_of_none (i := .out) rfl, exec_out⟩

end Sys2Proof.Machine
end

section
/-! PROOF. Control transfer (44_control_transfer.md R230 to R237), settling O30, O31, O32, O33 and O35. The jumps are
one operation under different conditions. JSB is a handler with one write, so whether it completes is whether its push
fits; RTS undoes it, an Address being recovered by decrementing and incrementing it. -/

namespace Sys2Proof.Machine

/-- JUMP permits DIR alone (R107). -/
theorem encodesModes_of_jump {op : Opcode} (hcls : op.cls = .jump) :
    encodesModes op.number [.dir] (Instr.build op) :=
  encodesModes_of_permits fun m => by
    simp only [Opcode.permits, hcls]
    cases m <;> decide

/-! ### Jumps -/

/-- A jump writes PC alone: its target when the condition holds, the address after PC when not. -/
theorem jumpIf_eq (c : Bool) (x : Operand) (s : State) :
    jumpIf c x s = .next { s with
      pc := if c = true then x.setWidth 32 else nextPc s, response := answered .ok } := by
  cases c with
  | true => rfl
  | false => rfl

/-- JSP's condition is on two flags (R231). -/
theorem exec_jsp (x : Operand) (s : State) :
    exec (.jsp x) s = .next { s with
      pc := if s.z = false ∧ s.n = false then x.setWidth 32 else nextPc s, response := answered .ok } := by
  rw [exec, execJsp, jumpIf_eq]
  simp only [Bool.and_eq_true, Bool.not_eq_true']

/-- Settles O30: JMP is the jump whose condition always holds. -/
theorem jmpGoesToItsOperand : Obligations.JmpGoesToItsOperand :=
  ⟨encodesModes_of_jump (op := .jmp) rfl, jumpIf_eq true⟩

/-- Settles O31. -/
theorem conditionalJumpsReadTheirFlags : Obligations.ConditionalJumpsReadTheirFlags :=
  ⟨encodesModes_of_jump (op := .jsp) rfl, encodesModes_of_jump (op := .jsn) rfl,
    encodesModes_of_jump (op := .jiz) rfl, encodesModes_of_jump (op := .jof) rfl,
    fun x s => ⟨exec_jsp x s, jumpIf_eq s.n x s, jumpIf_eq s.z x s, jumpIf_eq s.o x s⟩⟩

/-! ### Subroutines -/

/-- A JSB whose push fits commits the push, SP and PC (R235). -/
theorem exec_jsb_of_writeFits {x : Operand} {s : State} (h : writeFits s s.sp (!s.stackTrace)) :
    exec (.jsb x) s = .next { afterWrite s s.sp (nextPc s) (!s.stackTrace) with
      sp := toAddr s.params (s.sp - 1#32), pc := x.setWidth 32, response := answered .ok } := by
  rw [exec, execJsb, commitWrite_of_writeFits _ _ h]
  rfl

/-- A JSB whose push does not fit changes nothing, not even SP (R148, R235). -/
theorem exec_jsb_of_not_writeFits {x : Operand} {s : State} (h : ¬writeFits s s.sp (!s.stackTrace)) :
    exec (.jsb x) s = .next { s with response := answered .outOfMemory } := by
  rw [exec, execJsb, commitWrite_of_not_writeFits _ _ h]
  rfl

/-- RTS reads at the incremented SP (R236, 90_conflicts.md C1). -/
theorem exec_rts {s : State} {top : Addr} (h : top = toAddr s.params (s.sp + 1#32)) :
    exec .rts s = .next { s with
      sp := top, pc := toAddr s.params (memRead s top), response := answered .ok } := by
  subst h
  rfl

/-- Settles O32, by whether the push fits. -/
theorem jsbPushesTheReturnAddress : Obligations.JsbPushesTheReturnAddress :=
  ⟨encodesModes_of_jump (op := .jsb) rfl, fun _ _ => ⟨exec_jsb_of_writeFits, exec_jsb_of_not_writeFits⟩⟩

/-- Settles O33. -/
theorem rtsPopsTheReturnAddress : Obligations.RtsPopsTheReturnAddress :=
  ⟨encodesBare_of_none (i := .rts) rfl, fun _ _ => exec_rts⟩

/-! ### Returning from a subroutine -/

@[simp] theorem afterWrite_params (s : State) (ea : Addr) (v : Word) (suppress : Bool) :
    (afterWrite s ea v suppress).params = s.params := by
  cases suppress <;> rfl

@[simp] theorem afterWrite_mem (s : State) (ea : Addr) (v : Word) (suppress : Bool) :
    (afterWrite s ea v suppress).mem = storePut s.mem ea.toNat v := by
  cases suppress <;> rfl

/-- A JSB that answers OK made its push: what it answers otherwise is OutOfMemory (R235). -/
theorem writeFits_of_exec_jsb_ok {x : Operand} {s t : State} (h : exec (.jsb x) s = .next t)
    (hok : t.response = answered .ok) : writeFits s s.sp (!s.stackTrace) := by
  by_contra hfit
  rw [exec_jsb_of_not_writeFits hfit, Host.Outcome.next.injEq] at h
  subst h
  cases hok

/-- What a return needs of a JSB that answered OK: SP one below, and the return address in the cell that SP
named (R235). -/
theorem exec_jsb_ok {x : Operand} {s t : State} (h : exec (.jsb x) s = .next t)
    (hok : t.response = answered .ok) :
    t.params = s.params ∧ t.sp = toAddr s.params (s.sp - 1#32) ∧ memRead t s.sp = nextPc s := by
  rw [exec_jsb_of_writeFits (writeFits_of_exec_jsb_ok h hok), Host.Outcome.next.injEq] at h
  subst h
  refine ⟨afterWrite_params .., rfl, ?_⟩
  simp [memRead, storeGet_put_same]

/-- The return address is an Address, so reading it as one keeps it (R28, R73). -/
theorem toAddr_nextPc (s : State) : toAddr s.params (nextPc s) = nextPc s :=
  toAddr_of_lt _ _ (toAddr_lt _ _)

/-- Settles O35: the cell above the decremented SP is the one JSB pushed to, which holds the return address. -/
theorem jsbThenRtsReturns : Obligations.JsbThenRtsReturns := by
  intro x s t u hsp hjsb hok hparams huSp hcell
  obtain ⟨htParams, htSp, htCell⟩ := exec_jsb_ok hjsb hok
  have hp : u.params = s.params := hparams.trans htParams
  have htop : s.sp = toAddr u.params (u.sp + 1#32) := by
    rw [hp, huSp, htSp, toAddr_pred_succ s.params s.sp hsp]
  have hret : toAddr u.params (memRead u s.sp) = nextPc s := by
    rw [hp, hcell, htCell, toAddr_nextPc]
  rw [exec_rts htop, hret]

end Sys2Proof.Machine
end

section
/-! PROOF. NOP and HLT (45_nop_halt.md R250, R251), settling O28 and O29. Both are of class NONE, so every mode and
operand decodes to them (R108); NOP completes an advance of PC, HLT raises its status in the state it started in. -/

namespace Sys2Proof.Machine

/-- NOP writes PC alone, even where PC wraps (R250). -/
theorem exec_nop (s : State) : exec .nop s = .next { s with pc := nextPc s, response := answered .ok } := rfl

/-- HLT writes nothing but its answer, so PC still addresses the HLT (R251). -/
theorem exec_hlt (s : State) : exec .hlt s = .next { s with response := answered .endOfProgram } := rfl

/-- Settles O28. -/
theorem nopOnlyAdvances : Obligations.NopOnlyAdvances :=
  ⟨encodesBare_of_none (i := .nop) rfl, exec_nop⟩

/-- Settles O29. -/
theorem hltEndsTheProgram : Obligations.HltEndsTheProgram :=
  ⟨encodesBare_of_none (i := .hlt) rfl, exec_hlt⟩

end Sys2Proof.Machine
end

section
/-! PROOF. The debug services (46_debug_services.md R260 to R263, R265 to R271), settling O52, O53, O54, O55, O58 and
O59. A command's run is a reply in the state it was asked in or in an update of it, said by an equation of its own where
the command branches or takes an Address. The turn of the port adds only that the command leaves it. -/

namespace Sys2Proof.Machine

/-- A command that returns in one step with a changed state `t` leaves the port with its status and result (R39,
R41); `step_of_reply` is the case that changes nothing. -/
theorem step_of_reply_changed {s t : State} {c : Command} {rest : List Command} {st : Status} {r : Result}
    (hport : s.port = c :: rest) (hrun : runCommand c s = .next (t.reply st r)) :
    step s = .next { t with port := rest, response := some { status := st, result := r } } :=
  step_of_returned hport hrun rfl

/-! ### Breakpoints -/

/-- An Address is not reduced by the port, so BP_SET adds the address it is given (R260). -/
theorem runCommand_bpSet {s : State} {a : Addr} (ha : a.toNat < 2 ^ s.params.addrW) :
    runCommand (.bpSet a) s = .next (({ s with bp := setInsert s.bp a.toNat }).reply .ok .nothing) := by
  rw [runCommand, toAddr_of_lt _ a ha]
  rfl

/-- BP_DEL of a breakpoint removes it (R261). -/
theorem runCommand_bpDel_of_mem {s : State} {a : Addr} (ha : a.toNat < 2 ^ s.params.addrW)
    (hmem : a.toNat ∈ s.bp) :
    runCommand (.bpDel a) s = .next (({ s with bp := setRemove s.bp a.toNat }).reply .ok .nothing) := by
  rw [runCommand, toAddr_of_lt _ a ha, cmdBpDel, if_pos (List.contains_iff_mem.mpr hmem)]
  rfl

/-- BP_DEL of any other address raises NotFound (R261). -/
theorem runCommand_bpDel_of_not_mem {s : State} {a : Addr} (ha : a.toNat < 2 ^ s.params.addrW)
    (hmem : a.toNat ∉ s.bp) : runCommand (.bpDel a) s = .next (s.reply .notFound .nothing) := by
  rw [runCommand, toAddr_of_lt _ a ha, cmdBpDel, if_neg (mt List.contains_iff_mem.mp hmem)]
  rfl

/-- Settles O52: BP after either command is the set operation of the model, whose members are known. -/
theorem breakpointSetAndDelete : Obligations.BreakpointSetAndDelete := by
  intro s a rest ha
  refine ⟨fun hport => ?_, fun hport hmem => ?_, fun hport hmem => ?_⟩
  · exact ⟨_, step_of_reply_changed hport (runCommand_bpSet ha), rfl, mem_setInsert s.bp a.toNat,
      fun hcons hmem => setInsert_of_mem _ s.bp a.toNat hcons.bp hmem⟩
  · exact ⟨_, step_of_reply_changed hport (runCommand_bpDel_of_mem ha hmem), rfl, mem_setRemove s.bp a.toNat⟩
  · exact step_of_reply hport (runCommand_bpDel_of_not_mem ha hmem)

/-! ### Queries, the stack pointer and the toggles -/

/-- SP_SET sets SP to the Address it is given (R266). -/
theorem runCommand_spSet {s : State} {a : Addr} (ha : a.toNat < 2 ^ s.params.addrW) :
    runCommand (.spSet a) s = .next (({ s with sp := a }).reply .ok .nothing) := by
  rw [runCommand, toAddr_of_lt _ a ha]
  rfl

/-- Settles O53: the three queries reply in the state they are asked in, and BP is ascending by its canonical
form. -/
theorem queriesAndStackPointerAccess : Obligations.QueriesAndStackPointerAccess := by
  intro s rest
  refine ⟨fun hport hcons => ?_, fun hport => ?_, fun a ha hport => ?_, fun hport => ?_⟩
  · obtain ⟨hascending, -⟩ := hcons.bp
    exact ⟨hascending, step_of_reply hport rfl⟩
  · exact step_of_reply hport rfl
  · exact step_of_reply_changed hport (runCommand_spSet ha)
  · exact step_of_reply hport rfl

/-- Settles O54: each toggle completes an update of its own bit. -/
theorem tracingToggles : Obligations.TracingToggles := by
  intro s b rest
  refine ⟨fun hport => ?_, fun hport => ?_⟩
  · exact step_of_reply_changed (t := { s with stackTrace := b }) hport rfl
  · exact step_of_reply_changed (t := { s with traceEn := b }) hport rfl

/-! ### PATCH -/

/-- The cell that a write stored is what a read at its address then gives (20_memory.md R62, R64). -/
theorem memRead_afterWrite_same (s : State) (a : Addr) (w : Word) (suppress : Bool) :
    memRead (afterWrite s a w suppress) a = w := by
  simp [memRead, storeGet_put_same]

/-- A PATCH whose write fits stores the assembled word and reports what now stands there (R263). -/
theorem runCommand_patch_of_writeFits {s : State} {a : Addr} {text : Text} {w : Word}
    (ha : a.toNat < 2 ^ s.params.addrW) (hv : encodeText s.params.layout text = .ok w)
    (hfit : writeFits s a false) :
    runCommand (.patch a text) s = .next ((afterWrite s a w false).reply .ok (.change a w)) := by
  simp only [runCommand, cmdPatch, hv, toAddr_of_lt _ a ha, memWrite_of_writeFits w hfit,
    memRead_afterWrite_same]

/-- A PATCH whose write does not fit raises OutOfMemory (R263). -/
theorem runCommand_patch_of_not_writeFits {s : State} {a : Addr} {text : Text} {w : Word}
    (ha : a.toNat < 2 ^ s.params.addrW) (hv : encodeText s.params.layout text = .ok w)
    (hfit : ¬writeFits s a false) :
    runCommand (.patch a text) s = .next (s.reply .outOfMemory .nothing) := by
  simp only [runCommand, cmdPatch, hv, toAddr_of_lt _ a ha,
    (memWrite_eq_none_iff_not_writeFits s a w false).mpr hfit, raise]

/-- Settles O55, verdict by verdict of ENCODE, and for an accepted text by whether the write fits. -/
theorem patchWritesOneInstruction : Obligations.PatchWritesOneInstruction := by
  intro s a text rest ha hport
  cases hv : encodeText s.params.layout text with
  | unknownInstruction | invalidInstruction =>
    exact step_of_reply hport (by simp only [runCommand, cmdPatch, hv, raise])
  | ok w =>
    refine ⟨fun hfit => ?_, fun hfit => ?_⟩
    · exact step_of_reply_changed hport (runCommand_patch_of_writeFits ha hv hfit)
    · exact step_of_reply hport (runCommand_patch_of_not_writeFits ha hv hfit)

/-! ### The change tracker -/

/-- Settles O58, by whether the last-write slot is dirty. -/
theorem changeQueryReportsOnce : Obligations.ChangeQueryReportsOnce := by
  intro s rest hport
  refine ⟨fun hdirty => ?_, fun hclean => ?_⟩
  · have hrun : runCommand .changeQuery s =
        .next (({ s with lwDirty := false }).reply .ok (.change s.lwAddr (memRead s s.lwAddr))) := by
      rw [runCommand, cmdChangeQuery, if_pos hdirty]
    exact step_of_reply_changed hport hrun
  · have hrun : runCommand .changeQuery s = .next (s.reply .invalidState .nothing) := by
      rw [runCommand, cmdChangeQuery, if_neg (by simp [hclean]), raise]
    exact step_of_reply hport hrun

/-- The reports stand in the order of their addresses, one for each (R271). -/
theorem map_fst_changeReports (s : State) (addrs : AddrSet) : (changeReports s addrs).map Prod.fst = addrs := by
  simp [changeReports, Function.comp_def]

/-- A report holds the cell of its address, UNINIT if there is none: an address within ADDR_W bits survives the
32 bits it is read through (20_memory.md R62, R271). -/
theorem changeReports_current {s : State} {addrs : AddrSet} (hbound : ∀ k ∈ addrs, k < 2 ^ s.params.addrW) :
    ∀ c ∈ changeReports s addrs, c.2 = (storeGet s.mem c.1).getD s.params.uninit := by
  intro c hc
  obtain ⟨k, hk, rfl⟩ := List.mem_map.mp hc
  have hlt : k < 2 ^ 32 := (hbound k hk).trans_le (pow_addrW_le s.params)
  simp only [memRead, BitVec.toNat_ofNat, Nat.mod_eq_of_lt hlt]

/-- Settles O59: the reports' addresses are the trace set, whose canonical form makes them ascend strictly and
each an Address. -/
theorem traceDrainIsAscendingAndCurrent : Obligations.TraceDrainIsAscendingAndCurrent := by
  intro s rest hport hcons
  obtain ⟨hascending, hbound⟩ := hcons.trace
  have haddrs := map_fst_changeReports s s.traceSet
  have hsorted : (changeReports s s.traceSet).Pairwise (fun x y => x.1 < y.1) := by
    rwa [← List.pairwise_map (f := Prod.fst) (R := (· < ·)), haddrs]
  exact ⟨changeReports s s.traceSet, step_of_reply_changed (t := { s with traceSet := [] }) hport rfl, haddrs,
    hsorted, changeReports_current hbound⟩

end Sys2Proof.Machine
end

section
/-! PROOF. Reads and writes (20_memory.md R62, R64, R66), settling O8 and O10. A write that succeeds answers
`afterWrite`, so what it does to a cell, to the domain of memory and to the trace set is said of that state. -/

namespace Sys2Proof.Machine

/-- Distinct Addresses name distinct cells. -/
theorem memRead_afterWrite_other {s : State} {ea k : Addr} (v : Word) (suppress : Bool) (h : k ≠ ea) :
    memRead (afterWrite s ea v suppress) k = memRead s k := by
  have hne : k.toNat ≠ ea.toNat := mt BitVec.eq_of_toNat_eq h
  simp [memRead, storeGet_put_other _ _ _ _ hne]

/-- A write adds its address to the domain of memory (R61). -/
theorem initialized_afterWrite (s : State) (ea : Addr) (v : Word) (suppress : Bool) (k : Nat) :
    initialized (afterWrite s ea v suppress) k ↔ k = ea.toNat ∨ initialized s k := by
  rw [initialized, afterWrite_mem, storeGet_put]
  by_cases hk : k = ea.toNat
  · simp [hk]
  · simp [hk, initialized]

/-- Settles O8. -/
theorem readAfterWrite : Obligations.ReadAfterWrite := by
  intro s t ea v suppress hw
  obtain rfl := eq_afterWrite_of_memWrite hw
  refine ⟨memRead_afterWrite_same s ea v suppress, (initialized_afterWrite ..).mpr (.inl rfl), fun k hk => ?_⟩
  have hne : k.toNat ≠ ea.toNat := mt BitVec.eq_of_toNat_eq hk
  exact ⟨memRead_afterWrite_other v suppress hk, (initialized_afterWrite ..).trans (or_iff_right hne)⟩

/-- An observed write joins the trace set while tracing (R66). -/
theorem mem_traceSet_afterWrite (s : State) (ea : Addr) (v : Word) (k : Nat) :
    k ∈ (afterWrite s ea v false).traceSet ↔ (s.traceEn = true ∧ k = ea.toNat) ∨ k ∈ s.traceSet := by
  cases hen : s.traceEn with
  | true => simp [afterWrite, hen, mem_setInsert]
  | false => simp [afterWrite, hen]

/-- Settles O10: that duplicates collapse is `setInsert_of_mem`. -/
theorem observedWriteIsTracked : Obligations.ObservedWriteIsTracked := by
  intro s t ea v hw
  obtain rfl := eq_afterWrite_of_memWrite hw
  refine ⟨rfl, rfl, mem_traceSet_afterWrite s ea v, fun hs hmem => ?_⟩
  cases hen : s.traceEn with
  | true => simp [afterWrite, hen, setInsert_of_mem _ _ _ hs.trace hmem]
  | false => simp [afterWrite, hen]

/-- A MemWrite that answers a state had the room it needed (R64). -/
theorem writeFits_of_memWrite {s t : State} {ea : Addr} {v : Word} {suppress : Bool}
    (h : memWrite s ea v suppress = some t) : writeFits s ea suppress := by
  by_contra hfit
  rw [(memWrite_eq_none_iff_not_writeFits s ea v suppress).mpr hfit] at h
  cases h

end Sys2Proof.Machine
end

section
/-! PROOF. What one step can change, settling O48, O11, O47, O49 and O50. The commands other than RESET are
compositions of a few updates, collected in `Updated`; a property that each update keeps is thus kept by every step
but a RESET, whose state is written out in full. -/

namespace Sys2Proof.Machine

/-! ### The updates -/

/-- The Addresses a command comes by: those the model reduces to ADDR_W bits, and those that `s` holds in PC and
SP. -/
def AddressIn (s : State) (a : Addr) : Prop := a.toNat < 2 ^ s.params.addrW ∨ a = s.pc ∨ a = s.sp

theorem addressIn_toAddr (s : State) (w : Word) : AddressIn s (toAddr s.params w) := .inl (toAddr_lt _ w)

theorem addressIn_zext32 (s : State) (x : Operand) : AddressIn s (zext32 x) := .inl (zext32_lt _ x)

theorem addressIn_pc (s : State) : AddressIn s s.pc := .inr (.inl rfl)

theorem addressIn_sp (s : State) : AddressIn s s.sp := .inr (.inr rfl)

theorem addressIn_storeAddr {s : State} {m : Mode} {x : Operand} {ea : Addr} (h : storeAddr s m x = some ea) :
    AddressIn s ea := .inl (storeAddr_lt s m x ea h)

/-- In a consistent state PC and SP are within ADDR_W bits (R28, R29). -/
theorem AddressIn.lt {s : State} {a : Addr} (h : AddressIn s a) (hs : Consistent s) :
    a.toNat < 2 ^ s.params.addrW := by
  obtain hlt | rfl | rfl := h
  · exact hlt
  · exact hs.pc
  · exact hs.sp

/-- What the updates that commands are made of can make of `s`. -/
inductive Updated (s : State) : State → Prop where
  | start : Updated s s
  /-- The fields no invariant speaks of. -/
  | setFree {u : State} (a b : Word) (outLog input : List Word) (traceEn stackTrace : Bool)
      (port : List Command) (response : Option Response) : Updated s u → Updated s { u with
        a := a, b := b, outLog := outLog, input := input, traceEn := traceEn, stackTrace := stackTrace
        port := port, response := response }
  /-- Z and N from a value, and any O. -/
  | setFlags {u : State} (v : Word) (o : Bool) : Updated s u → Updated s { u.setZN v with o := o }
  | setPc {u : State} {pc : Addr} (hpc : AddressIn s pc) : Updated s u → Updated s { u with pc := pc }
  | setSp {u : State} {sp : Addr} (hsp : AddressIn s sp) : Updated s u → Updated s { u with sp := sp }
  | addBp {u : State} {a : Addr} (ha : AddressIn s a) :
      Updated s u → Updated s { u with bp := setInsert u.bp a.toNat }
  | removeBp {u : State} (k : Nat) : Updated s u → Updated s { u with bp := setRemove u.bp k }
  | write {u : State} {ea : Addr} {suppress : Bool} (v : Word) (hea : AddressIn s ea)
      (hfit : writeFits u ea suppress) : Updated s u → Updated s (afterWrite u ea v suppress)
  | clearDirty {u : State} : Updated s u → Updated s { u with lwDirty := false }
  | clearTrace {u : State} : Updated s u → Updated s { u with traceSet := [] }

namespace Updated

variable {s t u : State}

/-- The parameters are configuration: no update writes them (10_state.md R37). -/
theorem params (h : Updated s t) : t.params = s.params := by
  induction h with
  | start => rfl
  | write _ _ _ _ ih => rw [afterWrite_params, ih]
  | _ => assumption

/-! ### The updates of the model -/

theorem setResponse (h : Updated s u) (r : Option Response) : Updated s { u with response := r } :=
  h.setFree u.a u.b u.outLog u.input u.traceEn u.stackTrace u.port r

theorem setPort (h : Updated s u) (cs : List Command) : Updated s { u with port := cs } :=
  h.setFree u.a u.b u.outLog u.input u.traceEn u.stackTrace cs u.response

theorem setToggles (h : Updated s u) (traceEn stackTrace : Bool) :
    Updated s { u with traceEn := traceEn, stackTrace := stackTrace } :=
  h.setFree u.a u.b u.outLog u.input traceEn stackTrace u.port u.response

theorem setB (h : Updated s u) (v : Word) : Updated s { u with b := v } :=
  h.setFree u.a v u.outLog u.input u.traceEn u.stackTrace u.port u.response

theorem setStreams (h : Updated s u) (outLog input : List Word) :
    Updated s { u with outLog := outLog, input := input } :=
  h.setFree u.a u.b outLog input u.traceEn u.stackTrace u.port u.response

/-- A and the flags are written together (R24 to R26). -/
theorem setAccumulator (h : Updated s u) (v : Word) (o : Bool) :
    Updated s { (({ u with a := v }).setZN v) with o := o } :=
  (h.setFree v u.b u.outLog u.input u.traceEn u.stackTrace u.port u.response).setFlags v o

/-- PC wraps within ADDR_W bits (R28). -/
theorem advance (h : Updated s u) : Updated s u.advance := by
  refine h.setPc ?_
  rw [h.params]
  exact addressIn_toAddr s _

theorem setArith (h : Updated s u) (op : AluOp) : Updated s (arith op u) := (h.setAccumulator _ _).advance

/-! ### The ways a command answers -/

theorem of_complete (hu : Updated s u) (h : complete u = .next t) : Updated s t := by
  obtain rfl := (complete_eq_next u t).mp h
  exact hu.setResponse _

theorem of_raise {e : Status} (h : raise e s = .next t) : Updated s t := by
  obtain rfl := (raise_eq_next e s t).mp h
  exact start.setResponse _

theorem of_reply (hu : Updated s u) {st : Status} {r : Result}
    (h : (.next (u.reply st r) : Host.Outcome State Fault Refusal) = .next t) : Updated s t := by
  obtain rfl := Host.Outcome.next.inj h
  exact hu.setResponse _

theorem of_commitWrite {ea : Addr} {v : Word} {suppress : Bool} {rest : State → State}
    (hea : AddressIn s ea) (hrest : ∀ u, Updated s u → Updated s (rest u))
    (h : commitWrite s ea v suppress rest = .next t) : Updated s t := by
  by_cases hfit : writeFits s ea suppress
  · rw [commitWrite_of_writeFits v rest hfit] at h
    exact (hrest _ (start.write v hea hfit)).of_complete h
  · rw [commitWrite_of_not_writeFits v rest hfit] at h
    exact of_raise h

/-- A jump's target is an Address, and so is the next cell (R112). -/
theorem of_jumpIf {c : Bool} {x : Operand} (h : jumpIf c x s = .next t) : Updated s t := by
  obtain ⟨-, rfl⟩ | ⟨-, rfl⟩ := jumpIf_cases c x s t h
  · exact (start.setPc (addressIn_zext32 s x)).setResponse _
  · exact start.advance.setResponse _

end Updated

/-! ### Instructions -/

open Updated

variable {s t : State}

theorem execLda_updated {m : Mode} {x : Operand} (h : execLda m x s = .next t) : Updated s t := by
  obtain ⟨-, rfl⟩ | ⟨v, -, rfl⟩ := execLda_cases m x s t h
  · exact start.setResponse _
  · exact (start.setAccumulator v false).advance.setResponse _

theorem execLdb_updated {m : Mode} {x : Operand} (h : execLdb m x s = .next t) : Updated s t := by
  obtain ⟨-, rfl⟩ | ⟨v, -, rfl⟩ := execLdb_cases m x s t h
  · exact start.setResponse _
  · exact (start.setB v).advance.setResponse _

theorem execSta_updated {m : Mode} {x : Operand} (h : execSta m x s = .next t) : Updated s t := by
  obtain ⟨-, rfl⟩ | ⟨ea, hea, hw⟩ := execSta_cases m x s t h
  · exact start.setResponse _
  · exact of_commitWrite (addressIn_storeAddr hea) (fun _ hu => hu.advance) hw

theorem execStb_updated {m : Mode} {x : Operand} (h : execStb m x s = .next t) : Updated s t := by
  obtain ⟨-, rfl⟩ | ⟨ea, hea, hw⟩ := execStb_cases m x s t h
  · exact start.setResponse _
  · exact of_commitWrite (addressIn_storeAddr hea) (fun _ hu => hu.advance) hw

theorem execDiv_updated (h : execDiv s = .next t) : Updated s t := by
  obtain ⟨-, rfl⟩ | ⟨-, rfl⟩ := execDiv_cases s t h
  · exact start.setResponse _
  · exact (start.setArith .div).setResponse _

theorem execInp_updated (h : execInp s = .next t) : Updated s t := by
  obtain ⟨-, rfl⟩ | ⟨v, rest, -, rfl⟩ := execInp_cases s t h
  · exact start.setResponse none
  · exact ((start.setStreams s.outLog rest).setAccumulator v false).advance.setResponse _

theorem execJsb_updated {x : Operand} (h : execJsb x s = .next t) : Updated s t :=
  of_commitWrite (addressIn_sp s)
    (fun _ hu => (hu.setSp (addressIn_toAddr s _)).setPc (addressIn_zext32 s x)) h

theorem execRts_updated (h : execRts s = .next t) : Updated s t :=
  ((start.setSp (addressIn_toAddr s _)).setPc (addressIn_toAddr s _)).of_complete h

/-- Every instruction is made of the updates. -/
theorem exec_updated (i : Instr) (h : exec i s = .next t) : Updated s t := by
  cases i with
  | nop => exact start.advance.of_complete h
  | lda m x => exact execLda_updated h
  | ldb m x => exact execLdb_updated h
  | sta m x => exact execSta_updated h
  | stb m x => exact execStb_updated h
  | add => exact (start.setArith .add).of_complete h
  | sub => exact (start.setArith .sub).of_complete h
  | mul => exact (start.setArith .mul).of_complete h
  | div => exact execDiv_updated h
  | rts => exact execRts_updated h
  | inp => exact execInp_updated h
  | out => exact (start.setStreams (s.outLog ++ [s.a]) s.input).advance.of_complete h
  | hlt => exact of_raise (e := .endOfProgram) h
  | jsb x => exact execJsb_updated h
  | jmp x | jsp x | jsn x | jiz x | jof x => exact of_jumpIf h

/-! ### Commands -/

theorem execute_updated {w : Word} {commit : Bool} (h : execute w commit s = .next t) : Updated s t := by
  obtain ⟨-, rfl⟩ | ⟨-, rfl⟩ | ⟨i, u, -, hu, rfl⟩ := execute_cases w commit s t h
  · exact start.setResponse _
  · exact start.setResponse _
  · cases commit with
    | true => exact exec_updated i hu
    | false => exact (exec_updated i hu).setPc (addressIn_pc s)

theorem stepCommand_updated (h : stepCommand s = .next t) : Updated s t := by
  obtain ⟨u, hu, rfl⟩ := stepCommand_cases s t h
  obtain ⟨heq, -⟩ | ⟨heq, -⟩ := checkBreakpoint_cases u
  · rw [heq]
    exact execute_updated hu
  · rw [heq]
    exact (execute_updated hu).setResponse _

theorem runTurn_updated (h : runTurn s = .next t) : Updated s t := by
  obtain ⟨u, hu, rfl⟩ := (onNext_eq_next _ _ _).mp h
  split
  · exact (stepCommand_updated hu).setResponse none
  · exact stepCommand_updated hu

theorem cmdExec_updated {text : Text} (h : cmdExec text s = .next t) : Updated s t := by
  unfold cmdExec at h
  split at h
  · exact of_raise h
  · exact of_raise h
  · exact execute_updated h

theorem cmdPatch_updated {a : Addr} {text : Text} (ha : AddressIn s a) (h : cmdPatch a text s = .next t) :
    Updated s t := by
  unfold cmdPatch at h
  split at h
  · exact of_raise h
  · exact of_raise h
  next w _ =>
    split at h
    · exact of_raise h
    next u hw =>
      obtain rfl := eq_afterWrite_of_memWrite hw
      exact (start.write w ha (writeFits_of_memWrite hw)).of_reply h

theorem cmdEncode_updated {text : Text} (h : cmdEncode text s = .next t) : Updated s t := by
  unfold cmdEncode at h
  split at h
  · exact of_raise h
  · exact of_raise h
  · exact start.of_reply h

theorem cmdDecode_updated {w : Word} (h : cmdDecode w s = .next t) : Updated s t := by
  unfold cmdDecode at h
  split at h
  · exact of_raise h
  · exact of_raise h
  · exact start.of_reply h

theorem cmdBpDel_updated {a : Addr} (h : cmdBpDel a s = .next t) : Updated s t := by
  unfold cmdBpDel at h
  split at h
  · exact (start.removeBp _).of_complete h
  · exact of_raise h

theorem cmdChangeQuery_updated (h : cmdChangeQuery s = .next t) : Updated s t := by
  unfold cmdChangeQuery at h
  split at h
  · exact start.clearDirty.of_reply h
  · exact of_raise h

/-- Every command but RESET is made of the updates. -/
theorem runCommand_updated {c : Command} (hc : ∀ image, c ≠ .reset image) (h : runCommand c s = .next t) :
    Updated s t := by
  cases c with
  | reset image => exact absurd rfl (hc image)
  | step => exact stepCommand_updated h
  | run => exact runTurn_updated h
  | exec text => exact cmdExec_updated h
  | patch a text => exact cmdPatch_updated (addressIn_toAddr s a) h
  | encode text => exact cmdEncode_updated h
  | decode w => exact cmdDecode_updated h
  | bpSet a => exact (start.addBp (addressIn_toAddr s a)).of_complete h
  | bpDel a => exact cmdBpDel_updated h
  | bpList | spGet | status => exact start.of_reply h
  | spSet a => exact (start.setSp (addressIn_toAddr s a)).of_complete h
  | stackTraceSet b => exact (start.setToggles s.traceEn b).of_complete h
  | traceSet b => exact (start.setToggles b s.stackTrace).of_complete h
  | changeQuery => exact cmdChangeQuery_updated h
  | traceDrain => exact start.clearTrace.of_reply h

/-! ### Steps -/

theorem cmdReset_cases {image : List (Addr × Word)} (h : cmdReset image s = .next t) :
    overCapacity s.params (storeOfImage s.params image) = false ∧ t = resetState s image := by
  unfold cmdReset at h
  split at h
  · cases h
  next hover => exact ⟨Bool.eq_false_iff.mpr hover, (Host.Outcome.next.inj h).symm⟩

theorem Updated.retire {u : State} (h : Updated s u) (rest : List Command) : Updated s (retire rest u) := by
  obtain ⟨-, heq⟩ | ⟨-, heq⟩ := retire_cases rest u
  · rw [heq]
    exact h.setPort rest
  · rwa [heq]

theorem Updated.holdStep {u : State} (h : Updated s u) : Updated s (holdStep u) := by
  obtain ⟨-, heq⟩ | ⟨-, heq⟩ := holdStep_cases u
  · rwa [heq]
  · rw [heq]
    exact h.setPort _

/-- What a step can change: it applies updates, or it runs a RESET whose image fits (R320, R323). -/
theorem step_updated (h : step s = .next t) :
    Updated s t ∨ ∃ image rest, s.port = .reset image :: rest ∧
      overCapacity s.params (storeOfImage s.params image) = false ∧
      t = { resetState s image with port := rest } := by
  obtain ⟨-, u, hu, rfl⟩ | ⟨c, rest, u, hport, hu, rfl⟩ := step_cases s t h
  · exact .inl (stepCommand_updated hu).holdStep
  · by_cases hc : ∃ image, c = .reset image
    · obtain ⟨image, rfl⟩ := hc
      obtain ⟨hfits, rfl⟩ := cmdReset_cases hu
      exact .inr ⟨image, rest, hport, hfits, rfl⟩
    · exact .inl ((runCommand_updated (not_exists.mp hc) hu).retire rest)

/-! ### The parameters and the domain of memory -/

/-- Settles O50. -/
theorem parametersNeverChange : Obligations.ParametersNeverChange := by
  intro s t h
  obtain hupd | ⟨image, rest, -, -, rfl⟩ := step_updated h
  · exact hupd.params
  · rfl

/-- A write adds to the domain of memory; nothing else touches it (20_memory.md R61). -/
theorem Updated.initialized {k : Nat} (h : Updated s t) (hs : initialized s k) : initialized t k := by
  induction h with
  | start => exact hs
  | write _ _ _ _ ih => exact (initialized_afterWrite ..).mpr (.inr ih)
  | _ => assumption

/-- Settles O11. -/
theorem initializedAddressesStay : Obligations.InitializedAddressesStay := by
  intro s t k h hport hs
  obtain hupd | ⟨image, rest, hreset, -, -⟩ := step_updated h
  · exact hupd.initialized hs
  · exact absurd hreset (hport image rest)

/-! ### The change tracker -/

/-- An observed write tells the tracker of the cell it stores; a suppressed one tells it nothing (R66). -/
theorem TrackerSound.afterWrite {ea : Addr} (hs : TrackerSound s) (v : Word) (suppress : Bool) :
    TrackerSound (afterWrite s ea v suppress) := by
  have hinit := initialized_afterWrite s ea v suppress
  cases suppress with
  | true =>
    have hkeep : ∀ k, Machine.initialized s k → Machine.initialized (Machine.afterWrite s ea v true) k :=
      fun k hk => (hinit k).mpr (.inr hk)
    exact ⟨fun hdirty => hkeep _ (hs.lw hdirty), fun k hk => hkeep k (hs.trace k hk)⟩
  | false =>
    refine ⟨fun _ => (hinit _).mpr (.inl rfl), fun k hk => (hinit k).mpr ?_⟩
    obtain ⟨-, heq⟩ | hold := (mem_traceSet_afterWrite s ea v k).mp hk
    · exact .inl heq
    · exact .inr (hs.trace k hold)

theorem Updated.trackerSound (h : Updated s t) (hs : TrackerSound s) : TrackerSound t := by
  induction h with
  | start => exact hs
  | write v _ _ _ ih => exact ih.afterWrite v _
  | clearDirty _ ih => exact { ih with lw := nofun }
  | clearTrace _ ih => exact { ih with trace := nofun }
  | _ =>
    rename_i ih
    exact { ih with }

/-- Settles O49: a RESET empties the tracker, every other step applies updates. -/
theorem stepKeepsTrackerSound : Obligations.StepKeepsTrackerSound := by
  intro s t hs h
  obtain hupd | ⟨image, rest, -, -, rfl⟩ := step_updated h
  · exact hupd.trackerSound hs
  · exact ⟨nofun, nofun⟩

/-! ### Consistency -/

/-- A count that has not reached a capacity can grow by one within it. -/
theorem withinCapacity_succ {n : Nat} {capacity : Option Nat} (h : withinCapacity n capacity)
    (hroom : capacity ≠ some n) : withinCapacity (n + 1) capacity := by
  intro c hc
  have hle := h c hc
  have hne : c ≠ n := fun heq => hroom (heq ▸ hc)
  omega

theorem withinCapacity_mono {m n : Nat} {capacity : Option Nat} (h : withinCapacity n capacity) (hmn : m ≤ n) :
    withinCapacity m capacity := fun c hc => hmn.trans (h c hc)

theorem overCapacity_eq_false_iff (p : Params) (m : Store) :
    overCapacity p m = false ↔ withinCapacity m.length p.cellCapacity := by
  unfold overCapacity withinCapacity
  cases p.cellCapacity <;> simp

/-- Z says that a value is 0 and N that it is below 0 (40_execution_engine.md R146). -/
theorem not_n_and_z_setZN (s : State) (v : Word) : ¬((s.setZN v).n = true ∧ (s.setZN v).z = true) := by
  simp only [State.setZN_n, State.setZN_z, decide_eq_true_eq]
  omega

/-- A write that fits overwrites a cell or has room for one more (R64, R65). -/
theorem cells_afterWrite {ea : Addr} {suppress : Bool} (hs : Consistent s) (v : Word)
    (hfit : writeFits s ea suppress) :
    withinCapacity (storePut s.mem ea.toNat v).length s.params.cellCapacity := by
  obtain ⟨hold | hroom, -⟩ := hfit
  · rw [storePut_length_old _ _ _ _ hs.mem hold]
    exact hs.cells
  · exact withinCapacity_mono (withinCapacity_succ hs.cells hroom) (storePut_length_le _ _ _)

/-- An observed write that fits adds no trace entry or has room for one more (R64, R66). -/
theorem trace_afterWrite {ea : Addr} (hs : Consistent s) (hea : ea.toNat < 2 ^ s.params.addrW) (v : Word)
    (hfit : writeFits s ea false) :
    setWf (2 ^ s.params.addrW) (afterWrite s ea v false).traceSet ∧
      withinCapacity (afterWrite s ea v false).traceSet.length s.params.traceCapacity := by
  obtain ⟨-, hfit⟩ := hfit
  cases hen : s.traceEn with
  | false => simpa [afterWrite, hen] using And.intro hs.trace hs.traced
  | true =>
    have hset : (afterWrite s ea v false).traceSet = setInsert s.traceSet ea.toNat := by simp [afterWrite, hen]
    rw [hset]
    refine ⟨setInsert_wf _ _ _ hea hs.trace, ?_⟩
    obtain hmem | hroom : ea.toNat ∈ s.traceSet ∨ s.params.traceCapacity ≠ some s.traceSet.length := by
      simpa [hen] using hfit
    · rw [setInsert_of_mem _ _ _ hs.trace hmem]
      exact hs.traced
    · exact withinCapacity_mono (withinCapacity_succ hs.traced hroom) (setInsert_length_le _ _)

theorem Consistent.afterWrite {ea : Addr} {suppress : Bool} (hs : Consistent s)
    (hea : ea.toNat < 2 ^ s.params.addrW) (v : Word) (hfit : writeFits s ea suppress) :
    Consistent (afterWrite s ea v suppress) := by
  have hmem := storePut_wf _ s.mem ea.toNat v hea hs.mem
  have hcells := cells_afterWrite hs v hfit
  cases suppress with
  | true => exact { hs with mem := hmem, cells := hcells }
  | false =>
    obtain ⟨htrace, htraced⟩ := trace_afterWrite hs hea v hfit
    exact { hs with mem := hmem, cells := hcells, lw := hea, trace := htrace, traced := htraced }

theorem Updated.consistent (h : Updated s t) (hs : Consistent s) : Consistent t := by
  induction h with
  | start => exact hs
  | setFree _ _ _ _ _ _ _ _ _ ih => exact { ih with }
  | @setFlags u v _ _ ih => exact { ih with flags := not_n_and_z_setZN u v }
  | setPc hpc hu ih => exact { ih with pc := hu.params ▸ hpc.lt hs }
  | setSp hsp hu ih => exact { ih with sp := hu.params ▸ hsp.lt hs }
  | addBp ha hu ih => exact { ih with bp := setInsert_wf _ _ _ (hu.params ▸ ha.lt hs) ih.bp }
  | removeBp k _ ih => exact { ih with bp := setRemove_wf _ _ k ih.bp }
  | write v hea hfit hu ih => exact ih.afterWrite (hu.params ▸ hea.lt hs) v hfit
  | clearDirty _ ih => exact { ih with }
  | clearTrace _ ih => exact { ih with trace := ⟨List.Pairwise.nil, nofun⟩, traced := fun _ _ => Nat.zero_le _ }

/-- Every register of the state of RESET is an Address or 0, and its image fits (R42, R322). -/
theorem consistent_resetState {image : List (Addr × Word)}
    (hfits : overCapacity s.params (storeOfImage s.params image) = false) : Consistent (resetState s image) where
  mem := storeOfImage_wf _ _
  bp := ⟨List.Pairwise.nil, nofun⟩
  trace := ⟨List.Pairwise.nil, nofun⟩
  pc := toAddr_lt _ _
  sp := toAddr_lt _ _
  lw := Nat.two_pow_pos _
  flags := nofun
  cells := (overCapacity_eq_false_iff _ _).mp hfits
  traced := fun _ _ => Nat.zero_le _

/-- Settles O48: the updates keep consistency, and RESET establishes it. -/
theorem stepKeepsConsistent : Obligations.StepKeepsConsistent := by
  intro s t hs h
  obtain hupd | ⟨image, rest, -, hfits, rfl⟩ := step_updated h
  · exact hupd.consistent hs
  · exact { consistent_resetState hfits with }

/-- Settles O47: the reset state is what a RESET with an empty image leaves. -/
theorem resetIsConsistent : Obligations.ResetIsConsistent :=
  ⟨resetState_reset ▸ consistent_resetState (s := State.reset) (image := []) rfl, nofun, nofun⟩

end Sys2Proof.Machine
end

section
/-! PROOF. Canonical words (30_encoding.md R114, 95_test_vectors.md), settling O2 and O6. -/

namespace Sys2Proof.Machine

/-- Settles O2. -/
theorem decodeOfEncodeIsTheInstruction : Obligations.DecodeOfEncodeIsTheInstruction :=
  fun l _ hwf => decode_encode l hwf

/-- Settles O6: each word is the canonical word of its instruction. -/
theorem wordsOfTheSpecDecode : Obligations.WordsOfTheSpecDecode :=
  ⟨decode_encode .lsbFirst (i := .lda .imm 5#24) rfl, decode_encode .lsbFirst (i := .lda .ind 100#24) rfl,
    decode_encode .lsbFirst (i := .sta .dir 100#24) rfl, decode_encode .lsbFirst (i := .div) rfl,
    decode_encode .lsbFirst (i := .inp) rfl, decode_encode .lsbFirst (i := .jsb 5#24) rfl,
    decode_encode .msbFirst (i := .jsb 5#24) rfl, decode_encode .lsbFirst (i := .hlt) rfl⟩

end Sys2Proof.Machine
end

section
/-! PROOF. The detector in single precision (42_arithmetic.md R204), settling O24. -/

namespace Sys2Proof.Machine

/-- Settles O24: binary64 finds no mismatch as the sum is in range (O22); binary32 rounds it to 16777216. -/
theorem singlePrecisionShadowLosesBits : Obligations.SinglePrecisionShadowLosesBits := by
  refine ⟨by decide, ?_, by decide⟩
  have hdetector := shadowFindsSignedOverflow .add 16777217#32 1#32 nofun
  exact Bool.eq_false_iff.mpr fun hfound => hdetector.mp hfound (by decide)

end Sys2Proof.Machine
end

section
/-! PROOF. The memory frames of the instructions (20_memory.md section 3), settling O16, O17, O34 and O37. A store and
a JSB either answer an error in the state they started in or commit one write. -/

namespace Sys2Proof.Machine

variable {s t : State}

/-! ### Instructions that store nothing -/

/-- Settles O37: by O36 neither memory nor the parameters change. -/
theorem otherInstructionsLeaveMemory : Obligations.OtherInstructionsLeaveMemory := by
  intro i s t hi h
  have hrow := exec_writesOnlyRow i s t h
  have hmem : t.mem = s.mem := by
    by_contra hne
    exact hi (hrow.mem hne)
  exact ⟨memRead_congr s t hmem hrow.params, fun k => by rw [initialized, initialized, hmem]⟩

/-! ### STA and STB -/

/-- The register a store instruction stores. -/
def storedValue (i : Instr) (m : Mode) (x : Operand) (s : State) : Word := if i = .sta m x then s.a else s.b

theorem exec_store_of_storeAddr {i : Instr} {m : Mode} {x : Operand} {ea : Addr}
    (hi : i = .sta m x ∨ i = .stb m x) (hea : storeAddr s m x = some ea) :
    exec i s = commitWrite s ea (storedValue i m x s) false State.advance := by
  obtain rfl | rfl := hi
  · rw [exec_sta_of_storeAddr hea, storedValue, if_pos rfl]
  · rw [exec_stb_of_storeAddr hea, storedValue, if_neg nofun]

theorem exec_store_of_no_storeAddr {i : Instr} {m : Mode} {x : Operand}
    (hi : i = .sta m x ∨ i = .stb m x) (hea : storeAddr s m x = none) :
    exec i s = .next { s with response := answered .invalidInstruction } := by
  obtain rfl | rfl := hi
  · simp only [exec, execSta, hea]
    rfl
  · simp only [exec, execStb, hea]
    rfl

/-- All that a store can do: an error that changes nothing, or one write and the advance of PC (R182, R183). -/
theorem exec_store_cases {i : Instr} {m : Mode} {x : Operand} (hi : i = .sta m x ∨ i = .stb m x)
    (h : exec i s = .next t) :
    (∃ st, st ≠ .ok ∧ t = { s with response := answered st }) ∨
      ∃ ea, storeAddr s m x = some ea ∧
        t = { afterWrite s ea (storedValue i m x s) false with
          pc := nextPc s, response := answered .ok } := by
  cases hea : storeAddr s m x with
  | none =>
    rw [exec_store_of_no_storeAddr hi hea] at h
    exact .inl ⟨.invalidInstruction, nofun, (Host.Outcome.next.inj h).symm⟩
  | some ea =>
    obtain ⟨hfits, hfails⟩ := store_outcomes s ea (storedValue i m x s)
    rw [exec_store_of_storeAddr hi hea] at h
    by_cases hfit : writeFits s ea false
    · rw [hfits hfit] at h
      exact .inr ⟨ea, rfl, (Host.Outcome.next.inj h).symm⟩
    · rw [hfails hfit] at h
      exact .inl ⟨.outOfMemory, nofun, (Host.Outcome.next.inj h).symm⟩

theorem answered_ne_ok {st : Status} (h : st ≠ .ok) : answered st ≠ answered .ok := by
  simpa [answered] using h

/-- Settles O16, by the two ways a store can end. -/
theorem storesChangeOneCell : Obligations.StoresChangeOneCell := by
  intro m x s t i hi h
  obtain ⟨st, hst, rfl⟩ | ⟨ea, hea, rfl⟩ := exec_store_cases hi h
  · exact ⟨fun _ _ _ _ => rfl, fun _ _ hok => absurd hok (answered_ne_ok hst), fun _ => rfl, rfl⟩
  · refine ⟨fun ea' hea' k hk => ?_, fun ea' hea' _ => ?_, fun hne => absurd rfl hne, rfl⟩
    · obtain rfl : ea = ea' := Option.some.inj (hea.symm.trans hea')
      exact memRead_afterWrite_other _ false hk
    · obtain rfl : ea = ea' := Option.some.inj (hea.symm.trans hea')
      exact memRead_afterWrite_same s ea _ false

/-- Settles O17: a fetch is a read at PC, and by O16 that cell holds A. -/
theorem nextFetchSeesTheStore : Obligations.NextFetchSeesTheStore := by
  intro m x s t ea hea h hok hpc
  obtain ⟨-, hcell, -⟩ := storesChangeOneCell m x s t (.sta m x) (.inl rfl) h
  rw [fetch, hpc, hcell ea hea hok, if_pos rfl]

/-! ### JSB -/

/-- Settles O34, by whether the push fits. -/
theorem jsbChangesOneCell : Obligations.JsbChangesOneCell := by
  intro x s t h
  by_cases hfit : writeFits s s.sp (!s.stackTrace)
  · rw [exec_jsb_of_writeFits hfit] at h
    obtain rfl := Host.Outcome.next.inj h
    refine ⟨fun k hk => memRead_afterWrite_other _ _ hk, fun _ => memRead_afterWrite_same s s.sp _ _,
      fun hoff => ?_, ?_⟩
    · rw [hoff]
      exact ⟨rfl, rfl, rfl⟩
    · generalize (!s.stackTrace) = suppress
      cases suppress with
      | true => rfl
      | false => rfl
  · rw [exec_jsb_of_not_writeFits hfit] at h
    obtain rfl := Host.Outcome.next.inj h
    exact ⟨fun _ _ => rfl, nofun, fun _ => ⟨rfl, rfl, rfl⟩, rfl⟩

end Sys2Proof.Machine
end

section
/-! PROOF. What a program can see (46_debug_services.md R273), settling O38. A state that agrees with `s` on what a
program can see is `s` with other debug state, port and response, `State.withDebug`; every instruction works on the
one as it does on the other. -/

namespace Sys2Proof.Machine

/-! ### States that look alike to a program -/

/-- `s` with the fields of `d` that no program can see. -/
def State.withDebug (s d : State) : State :=
  { s with
    bp := d.bp, lwAddr := d.lwAddr, lwDirty := d.lwDirty, traceSet := d.traceSet, traceEn := d.traceEn
    stackTrace := d.stackTrace, port := d.port, response := d.response }

theorem eq_withDebug_of_sameProgramView {s t : State} (h : sameProgramView s t) : t = s.withDebug t := by
  obtain ⟨hparams, ha, hb, hz, hn, ho, hpc, hsp, hmem, hout, hin⟩ := h
  simp only [State.withDebug, hparams, ha, hb, hz, hn, ho, hpc, hsp, hmem, hout, hin]

theorem sameProgramView_withDebug (s d : State) : sameProgramView s (s.withDebug d) :=
  ⟨rfl, rfl, rfl, rfl, rfl, rfl, rfl, rfl, rfl, rfl, rfl⟩

/-- A write leaves the program a view that does not depend on the debug state, nor on whether the change tracker is
told. -/
theorem exists_afterWrite_withDebug (s d : State) (ea : Addr) (v : Word) (p q : Bool) :
    ∃ d', afterWrite (s.withDebug d) ea v q = (afterWrite s ea v p).withDebug d' := by
  refine ⟨afterWrite (s.withDebug d) ea v q, eq_withDebug_of_sameProgramView ?_⟩
  have hsame := sameProgramView_withDebug (afterWrite s ea v p) (afterWrite (s.withDebug d) ea v q)
  cases p <;> cases q <;> exact hsame

/-- While the trace set is unbounded, whether a write fits does not depend on the debug state (20_memory.md R64). -/
theorem writeFits_iff_of_unbounded {s : State} (h : s.params.traceCapacity = none) (ea : Addr) (suppress : Bool) :
    writeFits s ea suppress ↔ initialized s ea.toNat ∨ s.params.cellCapacity ≠ some s.mem.length := by
  simp [writeFits, h]

/-! ### Answers that look alike to a program -/

/-- Both outcomes stop for one reason, or both answer, with one response and one view. -/
def sameAnswer : Host.Outcome State Fault Refusal → Host.Outcome State Fault Refusal → Prop
  | .next s, .next t => sameProgramView s t ∧ s.response = t.response
  | .fault r, .fault q => r = q
  | .refused r, .refused q => r = q
  | _, _ => False

theorem sameAnswer_complete (s d : State) : sameAnswer (complete s) (complete (s.withDebug d)) :=
  ⟨sameProgramView_withDebug s (d.reply .ok .nothing), rfl⟩

theorem sameAnswer_raise (e : Status) (s d : State) : sameAnswer (raise e s) (raise e (s.withDebug d)) :=
  ⟨sameProgramView_withDebug s (d.reply e .nothing), rfl⟩

theorem sameAnswer_jumpIf (c : Bool) (x : Operand) (s d : State) :
    sameAnswer (jumpIf c x s) (jumpIf c x (s.withDebug d)) := by
  cases c with
  | true => exact sameAnswer_complete { s with pc := jumpTarget x } d
  | false => exact sameAnswer_complete s.advance d

/-- A handler with a write, when what it does after the write cannot see the debug state either. -/
theorem sameAnswer_commitWrite {s : State} (hcap : s.params.traceCapacity = none) (d : State) (ea : Addr) (v : Word)
    (p q : Bool) {rest : State → State} (hrest : ∀ u d, rest (u.withDebug d) = (rest u).withDebug d) :
    sameAnswer (commitWrite s ea v p rest) (commitWrite (s.withDebug d) ea v q rest) := by
  have hiff : writeFits (s.withDebug d) ea q ↔ writeFits s ea p :=
    (writeFits_iff_of_unbounded (s := s.withDebug d) hcap ea q).trans (writeFits_iff_of_unbounded hcap ea p).symm
  by_cases hfit : writeFits s ea p
  · obtain ⟨d', hd'⟩ := exists_afterWrite_withDebug s d ea v p q
    rw [commitWrite_of_writeFits v rest hfit, commitWrite_of_writeFits v rest (hiff.mpr hfit), hd', hrest]
    exact sameAnswer_complete _ d'
  · rw [commitWrite_of_not_writeFits v rest hfit, commitWrite_of_not_writeFits v rest (mt hiff.mp hfit)]
    exact sameAnswer_raise _ s d

/-! ### Instructions -/

theorem sameAnswer_execLda (m : Mode) (x : Operand) (s d : State) :
    sameAnswer (execLda m x s) (execLda m x (s.withDebug d)) := by
  have hview : loadValue (s.withDebug d) m x = loadValue s m x := rfl
  unfold execLda
  rw [hview]
  cases loadValue s m x with
  | none => exact sameAnswer_raise _ s d
  | some v => exact sameAnswer_complete ({ (({ s with a := v }).setZN v) with o := false }).advance d

theorem sameAnswer_execLdb (m : Mode) (x : Operand) (s d : State) :
    sameAnswer (execLdb m x s) (execLdb m x (s.withDebug d)) := by
  have hview : loadValue (s.withDebug d) m x = loadValue s m x := rfl
  unfold execLdb
  rw [hview]
  cases loadValue s m x with
  | none => exact sameAnswer_raise _ s d
  | some v => exact sameAnswer_complete ({ s with b := v }).advance d

theorem sameAnswer_execSta {s : State} (hcap : s.params.traceCapacity = none) (m : Mode) (x : Operand) (d : State) :
    sameAnswer (execSta m x s) (execSta m x (s.withDebug d)) := by
  have hview : storeAddr (s.withDebug d) m x = storeAddr s m x := rfl
  unfold execSta
  rw [hview]
  cases storeAddr s m x with
  | none => exact sameAnswer_raise _ s d
  | some ea => exact sameAnswer_commitWrite hcap d ea s.a false false (fun _ _ => rfl)

theorem sameAnswer_execStb {s : State} (hcap : s.params.traceCapacity = none) (m : Mode) (x : Operand) (d : State) :
    sameAnswer (execStb m x s) (execStb m x (s.withDebug d)) := by
  have hview : storeAddr (s.withDebug d) m x = storeAddr s m x := rfl
  unfold execStb
  rw [hview]
  cases storeAddr s m x with
  | none => exact sameAnswer_raise _ s d
  | some ea => exact sameAnswer_commitWrite hcap d ea s.b false false (fun _ _ => rfl)

theorem sameAnswer_execDiv (s d : State) : sameAnswer (exec .div s) (exec .div (s.withDebug d)) := by
  by_cases hb : s.b.toInt = 0
  · rw [exec_div_of_zero hb, exec_div_of_zero (s := s.withDebug d) hb]
    exact sameAnswer_raise .divideByZero s d
  · by_cases hstop : divOverflows s = true ∧ s.params.divOvf = .undefined
    · obtain ⟨hover, hovf⟩ := hstop
      rw [exec_div_of_undefined hb hover hovf, exec_div_of_undefined (s := s.withDebug d) hb hover hovf]
      rfl
    · rw [exec_div_of_result hb hstop, exec_div_of_result (s := s.withDebug d) hb hstop]
      exact sameAnswer_complete (arith .div s) d

theorem sameAnswer_execInp (s d : State) : sameAnswer (execInp s) (execInp (s.withDebug d)) := by
  have hview : (s.withDebug d).input = s.input := rfl
  unfold execInp
  rw [hview]
  cases s.input with
  | nil => exact ⟨sameProgramView_withDebug s d.pending, rfl⟩
  | cons v rest =>
    exact sameAnswer_complete ({ (({ s with a := v, input := rest }).setZN v) with o := false }).advance d

/-- No instruction shows a program the debug state. The push of JSB alone can differ, in whether the change tracker
is told of it (R67). -/
theorem sameAnswer_exec (i : Instr) {s : State} (hcap : s.params.traceCapacity = none) (d : State) :
    sameAnswer (exec i s) (exec i (s.withDebug d)) := by
  cases i with
  | nop => exact sameAnswer_complete s.advance d
  | lda m x => exact sameAnswer_execLda m x s d
  | ldb m x => exact sameAnswer_execLdb m x s d
  | sta m x => exact sameAnswer_execSta hcap m x d
  | stb m x => exact sameAnswer_execStb hcap m x d
  | add => exact sameAnswer_complete (arith .add s) d
  | sub => exact sameAnswer_complete (arith .sub s) d
  | mul => exact sameAnswer_complete (arith .mul s) d
  | div => exact sameAnswer_execDiv s d
  | rts => exact sameAnswer_complete { s with sp := popAddr s, pc := toAddr s.params (memRead s (popAddr s)) } d
  | inp => exact sameAnswer_execInp s d
  | out => exact sameAnswer_complete ({ s with outLog := s.outLog ++ [s.a] }).advance d
  | hlt => exact sameAnswer_raise .endOfProgram s d
  | jsb x => exact sameAnswer_commitWrite hcap d s.sp (returnAddr s) (!s.stackTrace) (!d.stackTrace) (fun _ _ => rfl)
  | jmp x => exact sameAnswer_jumpIf true x s d
  | jsp x => exact sameAnswer_jumpIf (!s.z && !s.n) x s d
  | jsn x => exact sameAnswer_jumpIf s.n x s d
  | jiz x => exact sameAnswer_jumpIf s.z x s d
  | jof x => exact sameAnswer_jumpIf s.o x s d

/-- Settles O38. -/
theorem programsCannotObserveDebugState : Obligations.ProgramsCannotObserveDebugState := by
  intro i s t hview hcap
  have hsame := sameAnswer_exec i hcap t
  rw [← eq_withDebug_of_sameProgramView hview] at hsame
  refine ⟨fun s' hs => ?_, fun r hs => ?_⟩
  · rw [hs] at hsame
    cases ht : exec i t with
    | next t' => exact ⟨t', rfl, by rwa [ht] at hsame⟩
    | fault q | refused q => simp [ht, sameAnswer] at hsame
  · rw [hs] at hsame
    cases ht : exec i t with
    | fault q =>
      rw [ht] at hsame
      exact congrArg _ hsame.symm
    | next t' | refused q => simp [ht, sameAnswer] at hsame

end Sys2Proof.Machine
end

section
/-! PROOF. One STEP (40_execution_engine.md R141, R143, R151, R152), settling O39, O40 and O41. A STEP is the meaning of
the instruction decoded at PC and then the breakpoint check, which acts only on the answer OK. -/

namespace Sys2Proof.Machine

variable {s t u : State}

/-! ### Terms that no word decodes to -/

/-- Settles O39: neither a load in the indexed mode nor a store in the immediate or indexed mode has an operand. -/
theorem illFormedTermsAreInvalid : Obligations.IllFormedTermsAreInvalid := by
  intro i s hwf
  cases i with
  | lda m x | ldb m x =>
    cases m with
    | idx => rfl
    | imm | dir | ind => cases hwf
  | sta m x | stb m x =>
    cases m with
    | imm | idx => rfl
    | dir | ind => cases hwf
  | _ => cases hwf

/-! ### The breakpoint check -/

theorem returnedOk_iff (s : State) : returnedOk s = true ↔ s.response = answered .ok := beq_iff_eq

/-- After OK the answer says whether PC is in BP (R152). -/
theorem checkBreakpoint_of_ok (h : s.response = answered .ok) :
    checkBreakpoint s = { s with response := answered (if s.pc.toNat ∈ s.bp then .breakpoint else .ok) } := by
  have hok : returnedOk s = true := (returnedOk_iff s).mpr h
  by_cases hbp : s.pc.toNat ∈ s.bp
  · simp [checkBreakpoint, hok, hbp, State.reply]
  · simp [checkBreakpoint, hok, hbp, ← h]

/-- No other answer is checked (R151). -/
theorem checkBreakpoint_of_ne_ok (h : s.response ≠ answered .ok) : checkBreakpoint s = s := by
  have hok : returnedOk s = false := Bool.eq_false_iff.mpr (mt (returnedOk_iff s).mp h)
  simp [checkBreakpoint, hok]

theorem checkBreakpoint_of_not_mem (h : s.pc.toNat ∉ s.bp) : checkBreakpoint s = s := by
  simp [checkBreakpoint, h]

/-! ### The turn of the port that runs a STEP -/

/-- STEP is the decoded instruction and the breakpoint check (R141, R151). -/
theorem stepCommand_of_decode {i : Instr} (h : decode s.params.layout (memRead s s.pc) = .ok i) :
    stepCommand s = onNext checkBreakpoint (exec i s) := by
  have hexecute : execute (fetch s) true s = exec i s := by
    simp only [execute, fetch, h]
    cases exec i s <;> rfl
  rw [stepCommand, hexecute]

theorem step_of_port_nil (h : s.port = []) : step s = onNext holdStep (stepCommand s) := by
  simp only [step, portTurn, h, runCommand]

theorem step_of_port_step {rest : List Command} (h : s.port = .step :: rest) :
    step s = onNext (retire rest) (stepCommand s) := by
  simp only [step, portTurn, h, runCommand]

/-- A STEP that has returned needs no place on the port. -/
theorem holdStep_of_returned (h : s.response.isSome = true) : holdStep s = s := if_pos h

theorem holdStep_of_waiting (h : s.response = none) : holdStep s = { s with port := [.step] } := by
  simp [holdStep, h]

/-- Settles O40, by the answer of the instruction. -/
theorem stepRunsTheDecodedInstruction : Obligations.StepRunsTheDecodedInstruction := by
  intro s i hport hdecode
  have hstep : step s = onNext holdStep (onNext checkBreakpoint (exec i s)) := by
    rw [step_of_port_nil hport, stepCommand_of_decode hdecode]
  refine ⟨fun t hexec => ?_, fun r hexec => by rw [hstep, hexec]; rfl⟩
  replace hstep : step s = .next (holdStep (checkBreakpoint t)) := by rw [hstep, hexec]; rfl
  refine ⟨fun hok hbp => ?_, fun hreturned hquiet => ?_, fun hwaiting => ?_⟩
  · rw [hstep, checkBreakpoint_of_ok hok, if_pos hbp]
    rfl
  · have hcheck : checkBreakpoint t = t := by
      obtain hne | hbp := hquiet
      · exact checkBreakpoint_of_ne_ok hne
      · exact checkBreakpoint_of_not_mem hbp
    rw [hstep, hcheck, holdStep_of_returned hreturned]
  · rw [hstep, checkBreakpoint_of_ne_ok (by simp [hwaiting]), holdStep_of_waiting hwaiting]

/-! ### Words that do not decode -/

/-- An execute that raises an error ends a step with nothing but that error (R143). -/
theorem step_of_execute_raise {e : Status} (hport : s.port = []) (he : e ≠ .ok)
    (h : execute (fetch s) true s = raise e s) : step s = .next { s with response := answered e } := by
  have hne : (s.reply e .nothing).response ≠ answered .ok := answered_ne_ok he
  rw [step_of_port_nil hport, stepCommand, h]
  simp only [raise, onNext, checkBreakpoint_of_ne_ok hne]
  rfl

theorem execute_of_unknown {w : Word} (commit : Bool) (h : decode s.params.layout w = .unknownInstruction) :
    execute w commit s = raise .unknownInstruction s := by
  simp only [execute, h]

theorem execute_of_invalid {w : Word} (commit : Bool) (h : decode s.params.layout w = .invalidInstruction) :
    execute w commit s = raise .invalidInstruction s := by
  simp only [execute, h]

/-- Settles O41. -/
theorem undecodableWordChangesNothing : Obligations.UndecodableWordChangesNothing := by
  intro s w commit
  refine ⟨fun hword => ⟨execute_of_unknown commit hword, ?_⟩, fun hword => ⟨execute_of_invalid commit hword, ?_⟩⟩
  · rintro hport rfl
    exact step_of_execute_raise hport nofun (execute_of_unknown true hword)
  · rintro hport rfl
    exact step_of_execute_raise hport nofun (execute_of_invalid true hword)

end Sys2Proof.Machine
end

section
/-! PROOF. The wait of INP (43_io.md R222), settling O26. While it waits, the STEP of an INP is a step that changes
nothing but the answer, and the supplied values are all that ends it. -/

namespace Sys2Proof.Machine

variable {s : State}

theorem exec_inp_of_input_nil (h : s.input = []) : exec .inp s = .next { s with response := none } := by
  have hwait : execInp s = .next s.pending := by rw [execInp, h]
  exact hwait

/-- The STEP of an INP without a value waits (R222). -/
theorem stepCommand_of_waiting (hinput : s.input = []) (hdecode : decode s.params.layout (memRead s s.pc) = .ok .inp) :
    stepCommand s = .next { s with response := none } := by
  rw [stepCommand_of_decode hdecode, exec_inp_of_input_nil hinput]
  rfl

/-- A waiting STEP on the port stays there, and so do the commands behind it (10_state.md R41). -/
theorem step_of_waiting {rest : List Command} (hport : s.port = .step :: rest) (hinput : s.input = [])
    (hdecode : decode s.params.layout (memRead s s.pc) = .ok .inp) :
    step s = .next { s with response := none } := by
  rw [step_of_port_step hport, stepCommand_of_waiting hinput hdecode]
  rfl

/-- The STEP of an INP with a value completes and leaves what is behind it on the port (R220, R222). -/
theorem step_of_supplied {rest : List Command} {v : Word} {vs : List Word} (hport : s.port = .step :: rest)
    (hinput : s.input = v :: vs) (hdecode : decode s.params.layout (memRead s s.pc) = .ok .inp) :
    step s = .next { afterLoadA s v with
      input := vs, port := rest
      response := answered (if (nextPc s).toNat ∈ s.bp then .breakpoint else .ok) } := by
  rw [step_of_port_step hport, stepCommand_of_decode hdecode, exec_inp_of_input_cons hinput, onNext,
    checkBreakpoint_of_ok rfl]
  rfl

/-- Settles O26. -/
theorem inpWaitsForAValue : Obligations.InpWaitsForAValue := by
  intro s hinput
  have hsupply : ∀ vs : List Word, s.input ++ vs = vs := fun vs => by rw [hinput, List.nil_append]
  refine ⟨exec_inp_of_input_nil hinput, fun v vs => exec_inp_of_input_cons (hsupply _), ?_⟩
  rintro w rfl hport hdecode
  refine ⟨?_, fun cs => ⟨step_of_waiting rfl hinput hdecode, fun v vs => ?_⟩⟩
  · obtain hport | hport := hport
    · rw [step_of_port_nil hport, stepCommand_of_waiting hinput hdecode]
      rfl
    · rw [step_of_waiting hport hinput hdecode, ← hport]
  · exact step_of_supplied rfl (hsupply _) hdecode

end Sys2Proof.Machine
end

section
/-! PROOF. What a STEP does not read (10_state.md R37, R39, 40_execution_engine.md R153), settling O43 and O44. An
instruction reads neither the port nor the last answer and leaves the port alone, so a STEP is the same whatever they
are, which is what lets RUN keep itself on the port from turn to turn. -/

namespace Sys2Proof.Machine

variable {s t : State}

/-! ### The port and the answer -/

/-- `s` with other commands on its port. -/
def State.withPort (cs : List Command) (s : State) : State := { s with port := cs }

/-- `s` with another port and another last answer. -/
def State.withPortAnswer (cs : List Command) (r : Option Response) (s : State) : State :=
  { s with port := cs, response := r }

theorem afterWrite_withPortAnswer (cs : List Command) (r : Option Response) (s : State) (ea : Addr) (v : Word)
    (suppress : Bool) :
    afterWrite (s.withPortAnswer cs r) ea v suppress = (afterWrite s ea v suppress).withPortAnswer cs r := by
  cases suppress <;> rfl

/-- A handler with a write, when what it does after the write reads neither. -/
theorem commitWrite_withPortAnswer (cs : List Command) (r : Option Response) (s : State) (ea : Addr) (v : Word)
    (suppress : Bool) {rest : State → State}
    (hrest : ∀ u : State, rest (u.withPortAnswer cs r) = (rest u).withPortAnswer cs r) :
    commitWrite (s.withPortAnswer cs r) ea v suppress rest =
      onNext (State.withPort cs) (commitWrite s ea v suppress rest) := by
  by_cases hfit : writeFits s ea suppress
  · rw [commitWrite_of_writeFits v rest hfit, commitWrite_of_writeFits (s := s.withPortAnswer cs r) v rest hfit,
      afterWrite_withPortAnswer, hrest]
    rfl
  · rw [commitWrite_of_not_writeFits v rest hfit,
      commitWrite_of_not_writeFits (s := s.withPortAnswer cs r) v rest hfit]
    rfl

theorem jumpIf_withPortAnswer (cs : List Command) (r : Option Response) (c : Bool) (x : Operand) (s : State) :
    jumpIf c x (s.withPortAnswer cs r) = onNext (State.withPort cs) (jumpIf c x s) := by
  cases c with
  | true => rfl
  | false => rfl

theorem exec_div_withPortAnswer (cs : List Command) (r : Option Response) (s : State) :
    exec .div (s.withPortAnswer cs r) = onNext (State.withPort cs) (exec .div s) := by
  by_cases hb : s.b.toInt = 0
  · rw [exec_div_of_zero hb, exec_div_of_zero (s := s.withPortAnswer cs r) hb]
    rfl
  · by_cases hstop : divOverflows s = true ∧ s.params.divOvf = .undefined
    · obtain ⟨hover, hovf⟩ := hstop
      rw [exec_div_of_undefined hb hover hovf, exec_div_of_undefined (s := s.withPortAnswer cs r) hb hover hovf]
      rfl
    · rw [exec_div_of_result hb hstop, exec_div_of_result (s := s.withPortAnswer cs r) hb hstop]
      rfl

/-- An instruction reads neither the port nor the last answer, and keeps the port. -/
theorem exec_withPortAnswer (cs : List Command) (r : Option Response) (i : Instr) (s : State) :
    exec i (s.withPortAnswer cs r) = onNext (State.withPort cs) (exec i s) := by
  cases i with
  | lda m x =>
    have hsame : loadValue (s.withPortAnswer cs r) m x = loadValue s m x := rfl
    simp only [exec, execLda, hsame]
    cases loadValue s m x <;> rfl
  | ldb m x =>
    have hsame : loadValue (s.withPortAnswer cs r) m x = loadValue s m x := rfl
    simp only [exec, execLdb, hsame]
    cases loadValue s m x <;> rfl
  | sta m x =>
    have hsame : storeAddr (s.withPortAnswer cs r) m x = storeAddr s m x := rfl
    simp only [exec, execSta, hsame]
    cases storeAddr s m x with
    | none => rfl
    | some ea => exact commitWrite_withPortAnswer cs r s ea s.a false fun _ => rfl
  | stb m x =>
    have hsame : storeAddr (s.withPortAnswer cs r) m x = storeAddr s m x := rfl
    simp only [exec, execStb, hsame]
    cases storeAddr s m x with
    | none => rfl
    | some ea => exact commitWrite_withPortAnswer cs r s ea s.b false fun _ => rfl
  | div => exact exec_div_withPortAnswer cs r s
  | inp =>
    have hsame : (s.withPortAnswer cs r).input = s.input := rfl
    simp only [exec, execInp, hsame]
    cases s.input <;> rfl
  | jsb x => exact commitWrite_withPortAnswer cs r s s.sp (returnAddr s) (!s.stackTrace) fun _ => rfl
  | jmp x | jsp x | jsn x | jiz x | jof x => exact jumpIf_withPortAnswer cs r _ x s
  | nop | add | sub | mul | rts | out | hlt => rfl

theorem onNext_onNext (f g : State → State) (o : Host.Outcome State Fault Refusal) :
    onNext f (onNext g o) = onNext (fun u => f (g u)) o := by
  cases o <;> rfl

theorem checkBreakpoint_withPort (cs : List Command) (s : State) :
    checkBreakpoint (s.withPort cs) = (checkBreakpoint s).withPort cs := by
  by_cases hok : s.response = answered .ok
  · rw [checkBreakpoint_of_ok hok, checkBreakpoint_of_ok (s := s.withPort cs) hok]
    rfl
  · rw [checkBreakpoint_of_ne_ok hok, checkBreakpoint_of_ne_ok (s := s.withPort cs) hok]

theorem execute_withPortAnswer (cs : List Command) (r : Option Response) (w : Word) (commit : Bool) (s : State) :
    execute w commit (s.withPortAnswer cs r) = onNext (State.withPort cs) (execute w commit s) := by
  have hsame : (s.withPortAnswer cs r).params = s.params := rfl
  unfold execute
  rw [hsame]
  cases decode s.params.layout w with
  | unknownInstruction | invalidInstruction => rfl
  | ok i =>
    simp only [exec_withPortAnswer, onNext_onNext]
    cases commit <;> rfl

/-- A STEP reads neither the port nor the last answer, and keeps the port. -/
theorem stepCommand_withPortAnswer (cs : List Command) (r : Option Response) (s : State) :
    stepCommand (s.withPortAnswer cs r) = onNext (State.withPort cs) (stepCommand s) := by
  have hfetch : fetch (s.withPortAnswer cs r) = fetch s := rfl
  simp only [stepCommand, hfetch, execute_withPortAnswer, onNext_onNext, checkBreakpoint_withPort]

/-! ### The last answer

With the port that `s` has, the equations above compare `s` under two answers. -/

theorem execute_setAnswer (r : Option Response) (w : Word) (commit : Bool) (s : State) :
    execute w commit { s with response := r } = execute w commit s :=
  (execute_withPortAnswer s.port r w commit s).trans (execute_withPortAnswer s.port s.response w commit s).symm

theorem stepCommand_setAnswer (r : Option Response) (s : State) :
    stepCommand { s with response := r } = stepCommand s :=
  (stepCommand_withPortAnswer s.port r s).trans (stepCommand_withPortAnswer s.port s.response s).symm

theorem runTurn_setAnswer (r : Option Response) (s : State) : runTurn { s with response := r } = runTurn s := by
  rw [runTurn, stepCommand_setAnswer, runTurn]

theorem cmdExec_setAnswer (r : Option Response) (text : Text) (s : State) :
    cmdExec text { s with response := r } = cmdExec text s := by
  unfold cmdExec
  cases encodeText s.params.layout text with
  | unknownInstruction | invalidInstruction => rfl
  | ok w => exact execute_setAnswer r w false s

theorem cmdPatch_setAnswer (r : Option Response) (a : Addr) (text : Text) (s : State) :
    cmdPatch a text { s with response := r } = cmdPatch a text s := by
  unfold cmdPatch
  cases encodeText s.params.layout text with
  | unknownInstruction | invalidInstruction => rfl
  | ok w =>
    by_cases hfit : writeFits s a false
    · simp only [memWrite_of_writeFits w hfit, memWrite_of_writeFits (s := { s with response := r }) w hfit]
      rfl
    · simp only [(memWrite_eq_none_iff_not_writeFits s a w false).mpr hfit,
        (memWrite_eq_none_iff_not_writeFits { s with response := r } a w false).mpr hfit]
      rfl

/-- No command reads the last answer (R39). -/
theorem runCommand_setAnswer (r : Option Response) (c : Command) (s : State) :
    runCommand c { s with response := r } = runCommand c s := by
  cases c with
  | step => exact stepCommand_setAnswer r s
  | run => exact runTurn_setAnswer r s
  | exec text => exact cmdExec_setAnswer r text s
  | patch a text => exact cmdPatch_setAnswer r _ text s
  | _ => rfl

/-- Settles O43. -/
theorem noStepReadsTheResponse : Obligations.NoStepReadsTheResponse := by
  intro s r
  simp only [step, portTurn, runCommand_setAnswer]

/-! ### RUN -/

/-- RUN's own place on the port makes no difference to its STEP. -/
theorem stepCommand_setPort (cs : List Command) (h : stepCommand s = .next u) :
    stepCommand { s with port := cs } = .next { u with port := cs } := by
  have hsame := stepCommand_withPortAnswer cs s.response s
  rw [h] at hsame
  exact hsame

/-- A turn of RUN whose STEP answers OK leaves RUN on the port, not returned (R153). -/
theorem step_run_of_ok (rest : List Command) (h : stepCommand s = .next u) (hok : returnedOk u = true) :
    step { s with port := .run :: rest } = .next { u with port := .run :: rest, response := none } := by
  have hok' : returnedOk { u with port := .run :: rest } = true := hok
  simp only [step, portTurn, runCommand, runTurn, stepCommand_setPort (.run :: rest) h, onNext, hok', if_true]
  rfl

/-- Any other answer is RUN's own (R153). -/
theorem step_run_of_ne_ok (rest : List Command) (h : stepCommand s = .next u) (hreturned : u.response.isSome = true)
    (hne : u.response ≠ answered .ok) :
    step { s with port := .run :: rest } = .next { u with port := rest } := by
  have hok : returnedOk { u with port := .run :: rest } = false := Bool.eq_false_iff.mpr (mt (returnedOk_iff _).mp hne)
  simp only [step, portTurn, runCommand, runTurn, stepCommand_setPort (.run :: rest) h, onNext, hok, retire, hreturned,
    if_true, Bool.false_eq_true, if_false]

/-- By O43 a run of one step or more does not depend on the answer it starts with. -/
theorem core_run_setAnswer (n : Nat) (r : Option Response) (s : State) :
    Sys2Proof.core.run (n + 1) ({ s with response := r } : State) = Sys2Proof.core.run (n + 1) s := by
  have hsame : Sys2Proof.core.step ({ s with response := r } : State) = Sys2Proof.core.step s :=
    noStepReadsTheResponse s r
  simp only [Host.Core.run, hsame]

/-- A run of RUN goes on from the state of each STEP that answers OK. -/
theorem core_run_run_succ (n : Nat) (rest : List Command) (h : stepCommand s = .next u) (hok : returnedOk u = true) :
    Sys2Proof.core.run (n + 2) ({ s with port := .run :: rest } : State) =
      Sys2Proof.core.run (n + 1) ({ u with port := .run :: rest } : State) := by
  rw [core_run_succ _ _ _ (step_run_of_ok rest h hok)]
  exact core_run_setAnswer n none { u with port := .run :: rest }

/-- Settles O44, by induction on the STEPs that answer OK. -/
theorem runRepeatsStep : Obligations.RunRepeatsStep := by
  intro n s t rest hsteps
  induction hsteps with
  | zero s =>
    refine ⟨fun u hu hreturned hne => ?_, fun hpos => absurd hpos (Nat.lt_irrefl 0)⟩
    exact core_run_succ 0 _ _ (step_run_of_ne_ok rest hu hreturned hne)
  | succ n s u t hstep hok hsteps ih =>
    obtain ⟨hlast, hmore⟩ := ih
    refine ⟨fun v hv hreturned hne => ?_, fun _ => ?_⟩
    · rw [core_run_run_succ n rest hstep hok]
      exact hlast v hv hreturned hne
    · cases hsteps with
      | zero => exact core_run_succ 0 _ _ (step_run_of_ok rest hstep hok)
      | succ n =>
        rw [core_run_run_succ n rest hstep hok]
        exact hmore (Nat.succ_pos n)

end Sys2Proof.Machine
end

section
/-! PROOF. How a command ends (40_execution_engine.md R148, R156, 60_exceptions.md), settling O42, O45 and O46. -/

namespace Sys2Proof.Machine

variable {s t u : State}

/-! ### An instruction that does not answer OK changed nothing -/

/-- Whether an answer is OK, or the state is `s` but for the answer. -/
def OkOrUnchanged (s t : State) : Prop := t.response = answered .ok ∨ t = { s with response := t.response }

theorem okOrUnchanged_of_complete (h : complete u = .next t) : OkOrUnchanged s t := by
  obtain rfl := (complete_eq_next u t).mp h
  exact .inl rfl

theorem okOrUnchanged_of_raise {e : Status} (h : raise e s = .next t) : OkOrUnchanged s t := by
  obtain rfl := (raise_eq_next e s t).mp h
  exact .inr rfl

theorem okOrUnchanged_of_commitWrite {ea : Addr} {v : Word} {suppress : Bool} {rest : State → State}
    (h : commitWrite s ea v suppress rest = .next t) : OkOrUnchanged s t := by
  obtain ⟨-, rfl⟩ | ⟨u, -, rfl⟩ := commitWrite_cases s t ea v suppress rest h
  · exact .inr rfl
  · exact .inl rfl

/-- Every handler commits whole and answers OK, or commits nothing (R148). -/
theorem exec_okOrUnchanged (i : Instr) (h : exec i s = .next t) : OkOrUnchanged s t := by
  cases i with
  | lda m x =>
    obtain ⟨-, rfl⟩ | ⟨v, -, rfl⟩ := execLda_cases m x s t h
    · exact .inr rfl
    · exact .inl rfl
  | ldb m x =>
    obtain ⟨-, rfl⟩ | ⟨v, -, rfl⟩ := execLdb_cases m x s t h
    · exact .inr rfl
    · exact .inl rfl
  | sta m x =>
    obtain ⟨-, rfl⟩ | ⟨ea, -, hw⟩ := execSta_cases m x s t h
    · exact .inr rfl
    · exact okOrUnchanged_of_commitWrite hw
  | stb m x =>
    obtain ⟨-, rfl⟩ | ⟨ea, -, hw⟩ := execStb_cases m x s t h
    · exact .inr rfl
    · exact okOrUnchanged_of_commitWrite hw
  | div =>
    obtain ⟨-, rfl⟩ | ⟨-, rfl⟩ := execDiv_cases s t h
    · exact .inr rfl
    · exact .inl rfl
  | inp =>
    obtain ⟨-, rfl⟩ | ⟨v, rest, -, rfl⟩ := execInp_cases s t h
    · exact .inr rfl
    · exact .inl rfl
  | jsb x => exact okOrUnchanged_of_commitWrite h
  | hlt => exact okOrUnchanged_of_raise (e := .endOfProgram) h
  | nop | add | sub | mul | rts | out | jmp | jsp | jsn | jiz | jof => exact okOrUnchanged_of_complete h

theorem execute_okOrUnchanged {w : Word} (h : execute w true s = .next t) : OkOrUnchanged s t := by
  obtain ⟨-, rfl⟩ | ⟨-, rfl⟩ | ⟨i, u, -, hu, rfl⟩ := execute_cases w true s t h
  · exact .inr rfl
  · exact .inr rfl
  · exact exec_okOrUnchanged i hu

/-- The answer of the breakpoint check after OK is OK or Breakpoint (R152). -/
theorem response_ne_ok_of_checkBreakpoint {st : Status} (h : (checkBreakpoint u).response = answered st)
    (hok : st ≠ .ok) (hbp : st ≠ .breakpoint) : u.response ≠ answered .ok := by
  intro hu
  rw [checkBreakpoint_of_ok hu] at h
  have hst : (if u.pc.toNat ∈ u.bp then Status.breakpoint else .ok) = st := by simpa using h
  split at hst
  · exact hbp hst.symm
  · exact hok hst.symm

/-- A STEP that answers neither OK nor Breakpoint changed nothing (R156). -/
theorem stepCommand_unchanged {st : Status} (h : stepCommand s = .next t) (ht : t.response = answered st)
    (hok : st ≠ .ok) (hbp : st ≠ .breakpoint) : t = { s with response := answered st } := by
  obtain ⟨u, hu, rfl⟩ := stepCommand_cases s t h
  have hne := response_ne_ok_of_checkBreakpoint ht hok hbp
  rw [checkBreakpoint_of_ne_ok hne] at ht ⊢
  rw [← ht]
  exact (execute_okOrUnchanged hu).resolve_left hne

/-- Settles O42: what changed nothing but the answer is stepped from as before (O43). -/
theorem failingStepChangesNothingAndRepeats : Obligations.FailingStepChangesNothingAndRepeats := by
  intro s t st hport h ht hok hbp
  have hunchanged : t = { s with response := answered st } := by
    rw [step_of_port_nil hport, onNext_eq_next] at h
    obtain ⟨u, hu, rfl⟩ := h
    obtain ⟨-, hhold⟩ | ⟨hwaiting, hhold⟩ := holdStep_cases u
    · rw [hhold] at ht ⊢
      exact stepCommand_unchanged hu ht hok hbp
    · simp [hhold, hwaiting] at ht
  refine ⟨hunchanged, ?_⟩
  rw [hunchanged] at h ⊢
  exact (noStepReadsTheResponse s _).trans h

/-! ### The error of DIV can be mended (60_exceptions.md R302) -/

/-- `ldb #1` is accepted in either layout, and denotes LDB of the immediate 1. -/
theorem encodeText_ldb_one (l : Layout) :
    encodeText l ['l', 'd', 'b', ' ', '#', '1'] = .ok (encode l (.ldb .imm 1#24)) := by
  cases l <;> decide

/-- EXEC of `ldb #1` loads B, and PC stays (R150, R181, R264). -/
theorem step_exec_ldb_one {rest : List Command} (hport : s.port = .exec ['l', 'd', 'b', ' ', '#', '1'] :: rest) :
    step s = .next { s with b := 1#32, port := rest, response := answered .ok } := by
  have hdecode : decode s.params.layout (encode s.params.layout (.ldb .imm 1#24)) = .ok (.ldb .imm 1#24) :=
    decode_encode _ rfl
  have hload : loadValue s .imm 1#24 = some 1#32 := rfl
  have hrun : runCommand (.exec ['l', 'd', 'b', ' ', '#', '1']) s =
      .next { s with b := 1#32, response := answered .ok } := by
    simp only [runCommand, cmdExec, encodeText_ldb_one]
    exact execute_uncommitted hdecode (exec_ldb_of_loadValue hload)
  exact step_of_returned hport hrun rfl

/-- A STEP of DIV by 0 returns DivideByZero (R209). -/
theorem step_div_of_zero {rest : List Command} (hport : s.port = .step :: rest)
    (hdecode : decode s.params.layout (memRead s s.pc) = .ok .div) (hb : s.b = 0#32) :
    step s = .next { s with port := rest, response := answered .divideByZero } := by
  rw [step_of_port_step hport, stepCommand_of_decode hdecode, exec_div_of_zero (by rw [hb]; rfl), onNext,
    checkBreakpoint_of_ne_ok (answered_ne_ok (st := .divideByZero) nofun)]
  rfl

/-- DIV by 1 keeps A (R209). -/
theorem exec_div_of_one (hb : s.b = 1#32) : ∃ found, exec .div s = .next (afterArith s s.a found) := by
  have hone : s.b.toInt = 1 := by rw [hb]; rfl
  have hquot : s.a = aluInt .div s.a.toInt s.b.toInt := by
    rw [hone, aluInt, aluExact, Int.tdiv_one, wrap32, BitVec.ofInt_toInt]
  have hres : ¬(divOverflows s = true ∧ s.params.divOvf = .undefined) := by
    rw [divOverflows_iff, hone]
    omega
  rw [exec_div_of_result (by omega) hres]
  exact ⟨_, complete_arith hquot⟩

/-- A STEP of DIV by 1 with no breakpoints completes. -/
theorem step_div_of_one {rest : List Command} (hport : s.port = .step :: rest)
    (hdecode : decode s.params.layout (memRead s s.pc) = .ok .div) (hb : s.b = 1#32) (hbp : s.bp = []) :
    ∃ found, step s = .next { afterArith s s.a found with port := rest } := by
  obtain ⟨found, hexec⟩ := exec_div_of_one hb
  have hquiet : (afterArith s s.a found).pc.toNat ∉ (afterArith s s.a found).bp := by
    show _ ∉ s.bp
    simp [hbp]
  refine ⟨found, ?_⟩
  rw [step_of_port_step hport, stepCommand_of_decode hdecode, hexec, onNext, checkBreakpoint_of_not_mem hquiet]
  rfl

/-- Settles O45, command by command. -/
theorem divideByZeroIsRecoverable : Obligations.DivideByZeroIsRecoverable := by
  intro s hdecode hb hbp hport
  obtain ⟨found, hlast⟩ := step_div_of_one (s := { s with b := 1#32, port := [.step], response := answered .ok })
    rfl hdecode rfl hbp
  refine ⟨{ afterArith s s.a found with b := 1#32, port := [] }, ?_, rfl, rfl, rfl, rfl, rfl⟩
  rw [core_run_succ _ _ _ (step_div_of_zero hport hdecode hb), core_run_succ _ _ _ (step_exec_ldb_one rfl),
    core_run_succ _ _ _ hlast]
  rfl

/-! ### Where the machine stops -/

theorem goesOn_onNext (f : State → State) {o : Host.Outcome State Fault Refusal} (h : goesOn o) :
    goesOn (onNext f o) := by
  obtain ⟨t, rfl⟩ := h
  exact ⟨f t, rfl⟩

theorem goesOn_raise (e : Status) (s : State) : goesOn (raise e s) := ⟨_, rfl⟩

/-- The one fault of an instruction needs DIV_OVF = UNDEFINED (42_arithmetic.md R210). -/
theorem exec_goesOn (hwrap : s.params.divOvf = .wrap) (i : Instr) : goesOn (exec i s) := by
  cases h : exec i s with
  | next t => exact ⟨t, rfl⟩
  | fault r =>
    obtain ⟨-, -, hundefined, -⟩ := exec_fault_cases i s r h
    simp [hwrap] at hundefined
  | refused r => exact absurd h (exec_not_refused i s r)

theorem execute_goesOn (hwrap : s.params.divOvf = .wrap) (w : Word) (commit : Bool) : goesOn (execute w commit s) := by
  unfold execute
  cases decode s.params.layout w with
  | unknownInstruction | invalidInstruction => exact goesOn_raise _ s
  | ok i => exact goesOn_onNext _ (exec_goesOn hwrap i)

theorem stepCommand_goesOn (hwrap : s.params.divOvf = .wrap) : goesOn (stepCommand s) :=
  goesOn_onNext _ (execute_goesOn hwrap _ true)

theorem cmdExec_goesOn (hwrap : s.params.divOvf = .wrap) (text : Text) : goesOn (cmdExec text s) := by
  unfold cmdExec
  cases encodeText s.params.layout text with
  | unknownInstruction | invalidInstruction => exact goesOn_raise _ s
  | ok w => exact execute_goesOn hwrap w false

theorem cmdPatch_goesOn (a : Addr) (text : Text) (s : State) : goesOn (cmdPatch a text s) := by
  unfold cmdPatch
  cases encodeText s.params.layout text with
  | unknownInstruction | invalidInstruction => exact goesOn_raise _ s
  | ok w =>
    dsimp only
    cases memWrite s a w false with
    | none => exact goesOn_raise _ s
    | some t => exact ⟨_, rfl⟩

/-- Every command but a RESET over capacity answers (R210, 70_reset_and_hazards.md R323). -/
theorem runCommand_goesOn (hwrap : s.params.divOvf = .wrap) (c : Command)
    (hreset : ∀ image, c = .reset image → overCapacity s.params (storeOfImage s.params image) = false) :
    goesOn (runCommand c s) := by
  cases c with
  | reset image => exact ⟨_, by rw [runCommand, cmdReset, hreset image rfl, if_neg nofun]⟩
  | step => exact stepCommand_goesOn hwrap
  | run => exact goesOn_onNext _ (stepCommand_goesOn hwrap)
  | exec text => exact cmdExec_goesOn hwrap text
  | patch a text => exact cmdPatch_goesOn _ text s
  | encode text =>
    simp only [runCommand, cmdEncode]
    cases encodeText s.params.layout text <;> exact ⟨_, rfl⟩
  | decode w =>
    simp only [runCommand, cmdDecode]
    cases decode s.params.layout w <;> exact ⟨_, rfl⟩
  | bpDel a =>
    simp only [runCommand, cmdBpDel]
    split <;> exact ⟨_, rfl⟩
  | changeQuery =>
    simp only [runCommand, cmdChangeQuery]
    split <;> exact ⟨_, rfl⟩
  | bpSet | bpList | spGet | spSet | stackTraceSet | traceSet | status | traceDrain => exact ⟨_, rfl⟩

/-- Settles O46: the turn of the port adds no way to stop. -/
theorem stepStopsOnlyWhereSaid : Obligations.StepStopsOnlyWhereSaid := by
  intro s hwrap hreset
  unfold step portTurn
  cases hport : s.port with
  | nil => exact goesOn_onNext _ (stepCommand_goesOn hwrap)
  | cons c rest =>
    exact goesOn_onNext _ (runCommand_goesOn hwrap c fun image hc => hreset image rest (hc ▸ hport))

end Sys2Proof.Machine
end

section
/-! PROOF. RESET and the program image (70_reset_and_hazards.md R320, R322, R325, R326), settling O51 and O60. RESET
stores the cells of its image one after another; distinct addresses do not overwrite each other. -/

namespace Sys2Proof.Machine

/-! ### The store of an image -/

/-- The cells of an image stored into `m`, of which `storeOfImage` is the case of the empty store. -/
def putImage (p : Params) (m : Store) (image : List (Addr × Word)) : Store :=
  image.foldl (fun m c => storePut m (toAddr p c.1).toNat c.2) m

theorem storeOfImage_eq (p : Params) (image : List (Addr × Word)) : storeOfImage p image = putImage p [] image := rfl

theorem putImage_cons (p : Params) (m : Store) (c : Addr × Word) (image : List (Addr × Word)) :
    putImage p m (c :: image) = putImage p (storePut m (toAddr p c.1).toNat c.2) image := rfl

/-- A cell that the image does not name stays. -/
theorem storeGet_putImage_of_not_mem {p : Params} {image : List (Addr × Word)} {k : Nat} (m : Store)
    (hk : ∀ c ∈ image, (toAddr p c.1).toNat ≠ k) : storeGet (putImage p m image) k = storeGet m k := by
  induction image generalizing m with
  | nil => rfl
  | cons c rest ih =>
    obtain ⟨hc, hrest⟩ := List.forall_mem_cons.mp hk
    rw [putImage_cons, ih _ hrest, storeGet_put_other _ _ _ _ hc.symm]

/-- When the addresses are distinct, each cell of the image is stored. -/
theorem storeGet_putImage_of_mem {p : Params} {image : List (Addr × Word)} {c : Addr × Word} (m : Store)
    (hdistinct : (image.map fun c => (toAddr p c.1).toNat).Nodup) (hc : c ∈ image) :
    storeGet (putImage p m image) (toAddr p c.1).toNat = some c.2 := by
  induction image generalizing m with
  | nil => cases hc
  | cons d rest ih =>
    obtain ⟨hd, hrest⟩ := List.nodup_cons.mp hdistinct
    rw [putImage_cons]
    obtain rfl | hc := List.mem_cons.mp hc
    · have hother : ∀ e ∈ rest, (toAddr p e.1).toNat ≠ (toAddr p c.1).toNat :=
        fun e he heq => hd (List.mem_map.mpr ⟨e, he, heq⟩)
      rw [storeGet_putImage_of_not_mem _ hother, storeGet_put_same]
    · exact ih _ hrest hc

/-- An image makes no more cells than it lists. -/
theorem length_putImage_le (p : Params) (m : Store) (image : List (Addr × Word)) :
    (putImage p m image).length ≤ m.length + image.length := by
  induction image generalizing m with
  | nil => exact le_rfl
  | cons c rest ih =>
    rw [putImage_cons, List.length_cons]
    have hrest := ih (storePut m (toAddr p c.1).toNat c.2)
    have hput := storePut_length_le m (toAddr p c.1).toNat c.2
    omega

/-! ### RESET -/

/-- The port's turn with a RESET whose image fits (R320, R323). -/
theorem step_reset {s : State} {image : List (Addr × Word)} {rest : List Command}
    (hport : s.port = .reset image :: rest) (hfits : withinCapacity image.length s.params.cellCapacity) :
    step s = .next { resetState s image with port := rest } := by
  have hlen : (storeOfImage s.params image).length ≤ image.length := by
    simpa [storeOfImage_eq] using length_putImage_le s.params [] image
  have hover := (overCapacity_eq_false_iff s.params (storeOfImage s.params image)).mpr (withinCapacity_mono hfits hlen)
  refine step_of_returned hport ?_ rfl
  rw [runCommand, cmdReset, hover, if_neg nofun]

/-- Settles O51: the addresses of the image are Addresses, so the port reduces none of them. -/
theorem resetLoadsTheImage : Obligations.ResetLoadsTheImage := by
  intro s image rest hport haddr hdistinct hfits
  have hself : ∀ c ∈ image, (toAddr s.params c.1).toNat = c.1.toNat := fun c hc => by
    rw [toAddr_of_lt _ _ (haddr c hc)]
  refine ⟨_, step_reset hport hfits, fun c hc => ?_, fun k hk => ?_, rfl⟩
  · rw [← hself c hc]
    refine storeGet_putImage_of_mem [] ?_ hc
    rw [List.map_congr_left hself, ← Function.comp_def, ← List.map_map]
    exact hdistinct.map BitVec.toNat_injective
  · have hnone : storeGet (putImage s.params [] image) k = none :=
      storeGet_putImage_of_not_mem [] fun c hc heq => hk (by
        rw [← heq, hself c hc]
        exact List.mem_map_of_mem hc)
    simp [initialized, storeOfImage_eq, hnone]

/-! ### The program image -/

/-- The i-th line from `a` on stands i cells after it (R325). -/
theorem getElem?_imageFrom (p : Params) (a : Addr) (lines : List Text) (i : Nat) :
    (imageFrom p a lines)[i]? =
      lines[i]?.map fun line => (toAddr p (a + BitVec.ofNat 32 i), lineCell p.layout line) := by
  induction lines generalizing a i with
  | nil => rfl
  | cons line rest ih =>
    cases i with
    | zero => simp [imageFrom]
    | succ i =>
      have hnext : a + 1#32 + BitVec.ofNat 32 i = a + BitVec.ofNat 32 (i + 1) := by
        rw [BitVec.add_assoc, BitVec.ofNat_add, BitVec.add_comm 1#32]
      simp only [imageFrom, List.getElem?_cons_succ, ih, hnext]

/-- Settles O60. -/
theorem imagePlacesEachLine : Obligations.ImagePlacesEachLine := by
  intro p lines i line hline
  rw [programImage, getElem?_imageFrom, hline, Option.map_some, lineCell]
  cases encodeText p.layout line <;> rfl

end Sys2Proof.Machine
end
